-- ==== Sys2Proof/Word.lean ====
section
/-!
DEFINITION. The widths of the block and its two small value types: the gate state and the status
(00_scope.md R8, R12; 10_state.md R25; 30_encoding.md R65).
-/

namespace Sys2Proof

/-- A `U32` value, or the 32-bit pattern of an `S32` value (R12). -/
abbrev Word := BitVec 32

/-- A `Byte` of the stream (R12, R45). -/
abbrev Byte := BitVec 8

/-- The byte cursor, a `U2` value (R24). -/
abbrev Cursor := BitVec 2

/-- A command word `cmd[33:0]` (R60, `CMD_W` = 34). -/
abbrev CmdWord := BitVec 34

/-- The session gate, "a binary flag" (R25, R110). Its bit codes stand in Decode.lean. -/
inductive Gate where
  | free
  | held
  deriving DecidableEq, Repr

/-- The answer to a command (R65). Its 2-bit codes stand in Decode.lean. -/
inductive Status where
  /-- The command took effect. -/
  | ok
  /-- OPEN while the gate is held (R142). -/
  | busy
  /-- Any WRITE (R143). -/
  | unsupported
  /-- READ while the gate is free (R144). -/
  | notHeld
  deriving DecidableEq, Repr

end Sys2Proof
end

