-- ==== Sys2Proof/Config.lean ====
section
/-!
DEFINITION. What is "fixed at build/init, not runtime-configurable" (00_scope.md R8, R9), and the one
free value of the model, the block's latency (70_reset_and_hazards.md R178).
-/

namespace Sys2Proof

/-- The SINE a block was built with (R80 to R85), as plain data. `table` holds one period of samples,
as R84 lets a build do; since SINE is pure and periodic in the phase (R82) and is only ever called
with the one constant period (R80), the tables of `period` entries are exactly the admitted SINEs.
DEDUCED (log entry 5): safe. -/
inductive SineFn where
  /-- `SINE_REF`, the spec's default (R85). -/
  | reference
  /-- Entry `i` is the pattern `bits32(SINE(i, period))`. -/
  | table (entries : List Word)
  deriving DecidableEq, Repr

/-- The open parameters `SAMPLE_RATE`, `TONE_HZ` and `SINE` (R8, R9). -/
structure Config where
  sampleRate : Nat
  toneHz     : Nat
  sine       : SineFn
  deriving DecidableEq, Repr

/-- `PERIOD = floor(SAMPLE_RATE / TONE_HZ)` (R8). -/
def Config.period (c : Config) : Nat := c.sampleRate / c.toneHz

/-- `PERIOD` as the 32-bit register holds it (R22). -/
def Config.periodWord (c : Config) : Word := BitVec.ofNat 32 c.period

/-- The defaults of R8: 96000, 220, `SINE_REF`. The first two are the source's; `SINE_REF` is the
spec's own default (decision D12), so a claim that rests on this value speaks of `SINE_REF` only.
Log entry 5: unsafe for such a claim. -/
def Config.standard : Config where
  sampleRate := 96000
  toneHz     := 220
  sine       := .reference

/-- `SINE_AMPL`, the peak magnitude of `SINE_REF` (R8). -/
def Config.sineAmpl : Nat := 127

/-- FREE VALUE (log entry 10). How many clock edges pass before the block makes its `k`-th next
offer on a channel: "not specified and no rule depends on it" (R178). Only its being finite is used. -/
opaque Config.latency : Nat → Nat

end Sys2Proof
end

