-- ==== Sys2Proof/Syntax.lean ====
section
/-!
DEFINITION. The four commands of 30_encoding.md R61, one constructor per row of the opcode table.
-/

namespace Sys2Proof

/-- A command (R60, R61). The operand field `arg` stays in the term for the commands that ignore it
(R63), so that encoding a decoded word gives every bit back; their meanings do not look at it. -/
inductive Instr where
  /-- OPEN (R121); `arg` is ignored. -/
  | openCmd (arg : Word)
  /-- READ `count` (R122). -/
  | readCmd (count : Word)
  /-- WRITE `arg` (R124); `arg` is ignored. -/
  | writeCmd (arg : Word)
  /-- CLOSE (R125); `arg` is ignored. -/
  | closeCmd (arg : Word)
  deriving DecidableEq, Repr

end Sys2Proof
end

