-- ==== Sys2Proof/WellFormed.lean ====
section
/-!
DEFINITION. Which configurations are this hardware (00_scope.md R9) and which written command lines
are commands (30_encoding.md R69). An `Instr` needs no check: its operand has exactly the 32 bits of
the field, and every pattern is legal (R62 to R64).
-/

namespace Sys2Proof

/-- A table build holds one entry for each index of the period (R84). -/
def SineFn.fits (period : Nat) : SineFn → Bool
  | .reference => true
  | .table entries => entries.length == period

/-- "A configuration with `TONE_HZ = 0` or with `PERIOD = 0` ... or with `PERIOD >= 2^32` is refused"
(R9), and so is a SINE that is not admitted (U11). -/
def Config.wf (c : Config) : Bool :=
  c.toneHz != 0 && c.period != 0 && decide (c.period < 2 ^ 32) && c.sine.fits c.period

/-- One line of a written command sequence (R69), its operand the number as written. -/
inductive Line where
  | openLine
  | readLine (count : Nat)
  /-- "`WRITE` with no operand means `arg = 0`." -/
  | writeLine (arg : Nat := 0)
  | closeLine
  /-- "The line `RESET` in a program is not a command": the reset input is pulsed. -/
  | resetLine
  deriving DecidableEq, Repr

/-- "`<count>` and `<arg>` are ... numbers in `[0, 2^32)`" (R69). -/
def Line.wf : Line → Bool
  | .readLine n | .writeLine n => decide (n < 2 ^ 32)
  | .openLine | .closeLine | .resetLine => true

end Sys2Proof
end

