-- ==== Sys2Proof/Decode.lean ====
section
/-!
DEFINITION. Command words to commands and back (30_encoding.md R60 to R64), the status and gate codes
(R65, 10_state.md R25), and the written form of a command word (R69).
-/

namespace Sys2Proof

/-- `op = cmd[33:32]` (R60). -/
def opField (w : CmdWord) : BitVec 2 := w.extractLsb' 32 2

/-- `arg = cmd[31:0]` (R60). -/
def argField (w : CmdWord) : Word := w.extractLsb' 0 32

/-- The decoder: "`op = cmd[33:32]` with no refusing arm" (R64). -/
def decode (w : CmdWord) : Instr :=
  if opField w = 0 then .openCmd (argField w)
  else if opField w = 1 then .readCmd (argField w)
  else if opField w = 2 then .writeCmd (argField w)
  else .closeCmd (argField w)

/-- The `op` code of a command (R61). -/
def opOf : Instr → BitVec 2
  | .openCmd _  => 0
  | .readCmd _  => 1
  | .writeCmd _ => 2
  | .closeCmd _ => 3

/-- The `arg` field of a command (R60). -/
def argOf : Instr → Word
  | .openCmd a | .readCmd a | .writeCmd a | .closeCmd a => a

/-- The encoder: the word `{op, arg}`, `op` in bits 33 and 32 (R60, R61). -/
def encode (i : Instr) : CmdWord := (opOf i).setWidth 34 <<< 32 ||| (argOf i).setWidth 34

/-- Why a number is no command word. -/
inductive DecodeError where
  /-- A bit above `cmd[33]` is set: a command word has 34 bits (R60, R68). -/
  | widerThanCommand
  deriving DecidableEq, Repr

/-- Decoding on any natural number: every 34-bit word is a command (R64), a wider number is rejected
by name. DESIGN CHOICE (log entry 17): safe. -/
def decodeNat (w : Nat) : Except DecodeError Instr :=
  if w < 2 ^ 34 then .ok (decode (BitVec.ofNat 34 w)) else .error .widerThanCommand

/-- The instruction the decoder reads from a table word: bit 0 of the table's word is `cmd[0]` (R11,
R60). Bits above `nbits` are zero, so `nbits` does not matter (log entry 26). -/
def decodeTableWord (_nbits w : Nat) : Option Instr :=
  match decodeNat w with
  | .ok i => some i
  | .error _ => none

/-- The status codes of R65. -/
def Status.code : Status → BitVec 2
  | .ok => 0
  | .busy => 1
  | .unsupported => 2
  | .notHeld => 3

/-- The bit codes of the gate, `Free = 0`, `Held = 1` (R20, R25). -/
def Gate.code : Gate → BitVec 1
  | .free => 0
  | .held => 1

/-- The command a written line stands for; `RESET` is not a command (R69). OPEN and CLOSE are written
with `arg = 0`. -/
def Line.command : Line → Option Instr
  | .openLine => some (.openCmd 0)
  | .readLine n => some (.readCmd (BitVec.ofNat 32 n))
  | .writeLine n => some (.writeCmd (BitVec.ofNat 32 n))
  | .closeLine => some (.closeCmd 0)
  | .resetLine => none

/-- One hexadecimal digit. -/
def hexDigit (n : Nat) : Char := "0123456789ABCDEF".toList.getD n '?'

/-- The 9-hex-digit spelling `0xO_AAAAAAAA` of a command word (R69). -/
def spelling (w : CmdWord) : String :=
  "0x" ++ String.ofList (hexDigit (opField w).toNat :: '_' ::
    (List.range 8).map fun k => hexDigit ((argField w).extractLsb' (28 - 4 * k) 4).toNat)

end Sys2Proof
end

