-- ==== Sys2Proof/Machine/State.lean ====
section
/-!
DEFINITION. The state of the block as plain data (10_state.md R20, R32), what the host has lined up for
it (00_scope.md R10), the transfers so far (20_memory.md R41), the reasons a step can stop, and the
state after reset (10_state.md R29).
-/

namespace Sys2Proof.Machine

open Sys2Proof

/-- The input wires at one rising edge of `clk` (R176). -/
structure Pins where
  rst      : Bool
  cmdValid : Bool
  cmd      : CmdWord
  rspReady : Bool
  datReady : Bool
  deriving DecidableEq, Repr

/-- Who moves next (R10, R161, R170). At the command level the block takes one of its steps, or the
host lets it stall, or reset fires; at the signal level one clock edge passes (R176, R177). -/
inductive Turn where
  /-- The host is willing: it takes what is offered and offers its next command. -/
  | proceed
  /-- The host neither takes anything nor offers a command (H-7, R170). -/
  | stall
  /-- `rst` is pulsed between two block steps (R161). -/
  | reset
  /-- One rising edge of `clk` with these inputs (R176). -/
  | edge (p : Pins)
  deriving DecidableEq, Repr

/-- A transfer on one of the three channels (R176), or the reset mark. -/
inductive Event where
  /-- The block accepted this command word (R177(a)). -/
  | command (w : CmdWord)
  /-- The host took this status (R65, R177(c)). -/
  | status (st : Status)
  /-- The host took this byte of the stream (R41, R177(d)). -/
  | byte (b : Byte)
  /-- Reset (R160): the stream starts anew (R41). -/
  | reset
  deriving DecidableEq, Repr

/-- Everything the spec gives the machine. -/
@[ext]
structure State where
  /-- The phase the next tick passes to SINE (R21). -/
  phase    : Word
  /-- The constant period (R22). -/
  period   : Word
  /-- The pattern `bits32` of the last sample computed (R23). -/
  sample   : Word
  /-- Which byte of the sample is next; 0 when the next byte starts a new sample (R24). -/
  cursor   : Cursor
  /-- The session gate (R25). -/
  gate     : Gate
  /-- Bytes the READ in progress still owes (R32(b)). -/
  owed     : Word
  /-- The status chosen for the current command and not yet taken (R177(b), (c)). -/
  rsp      : Option Status
  /-- The command the host offers on the wires and must hold until it is accepted (R176, U14). -/
  offered  : Option CmdWord
  /-- Clock edges until the block's next offer; loaded from `Config.latency` (R178, log entry 10). -/
  wait     : Nat
  /-- How many times `Config.latency` has been drawn from (log entry 10). -/
  draws    : Nat
  /-- The parameters of the build (R8, R9). -/
  config   : Config
  /-- The command words the host has lined up, the next one first (R10, R48). -/
  commands : List CmdWord
  /-- The coming turns; when the list is empty the block proceeds (log entry 2). -/
  schedule : List Turn
  /-- Every transfer so far, the oldest first (R41, R174). -/
  trace    : List Event
  deriving DecidableEq, Repr

/-- The block raises no fault: its errors are statuses (R140, R148), and a host that never takes a
byte leaves it waiting, which is "not a fault of the block" (U13). Nothing raises one: safe. -/
inductive Fault
  deriving DecidableEq, Repr

/-- Why the model refuses to go on. -/
inductive Refusal where
  /-- An instruction with no meaning yet; no arm of `exec` answers it any more. Safe. -/
  | notModelled (mnemonic : String)
  /-- Raised by `powerOn`: the configuration "is not this hardware" (R9, U10, U11). Safe. -/
  | illegalConfig
  /-- Raised by `clockEdge`: the host withdrew or changed a command it had on offer (U14: "outside
  the binding"). Safe. -/
  | brokenHandshake
  deriving DecidableEq, Repr

/-- The state after reset of a block built with configuration `c` (R29, R160). -/
def State.resetWith (c : Config) : State where
  phase    := 0
  period   := c.periodWord
  sample   := 0
  cursor   := 0
  gate     := .free
  owed     := 0
  rsp      := none
  offered  := none
  wait     := 0
  draws    := 0
  config   := c
  commands := []
  schedule := []
  trace    := []

/-- The state after reset with the default parameters of R8. -/
def State.reset : State := State.resetWith Config.standard

end Sys2Proof.Machine
end

