-- ==== Sys2Proof/Machine/Flags.lean ====
section
/-!
DEFINITION. The block has "no condition codes, no carry, zero, sign or overflow flag"; "`gate` is its
only status flag" (10_state.md R26). So the whole flag computation is: test the gate, write the gate.
-/

namespace Sys2Proof.Machine

/-- The gate test of OPEN and READ (R121, R122). -/
def isHeld (s : State) : Bool := s.gate == .held

/-- The write of the gate by `acquire` and `release` (R111, R112). -/
def setGate (g : Gate) (s : State) : State := { s with gate := g }

end Sys2Proof.Machine
end

