-- ==== Sys2Proof/Machine/Operands.lean ====
section
/-!
DEFINITION. Operands and data formats: READ's count (30_encoding.md R62), the two views of a sample
(00_scope.md R12), the 4-to-1 byte multiplexer (41_oscillator_engine.md R94) and its inverse (R67).
-/

namespace Sys2Proof.Machine

/-- `count` is `arg` taken as an unsigned 32-bit integer, unit one byte (R62). -/
def countOf (arg : Word) : Nat := arg.toNat

/-- `bits32(s)`, the two's complement pattern of `s` (R12). -/
def bits32 (s : Int) : Word := BitVec.ofInt 32 s

/-- `signed32(u)`, the inverse of `bits32` (R12). -/
def signed32 (u : Word) : Int := u.toInt

/-- The byte select: `bits32(s)[8*cursor+7 : 8*cursor]` (R90, R94). -/
def byteSelect (pattern : Word) (cursor : Cursor) : Byte :=
  pattern.extractLsb' (8 * cursor.toNat) 8

/-- The consumer's inverse: `b0 + 256*b1 + 65536*b2 + 16777216*b3` for four bytes in emission order (R67). -/
def joinBytes (b0 b1 b2 b3 : Byte) : Word :=
  BitVec.ofNat 32 (b0.toNat + 256 * b1.toNat + 65536 * b2.toNat + 16777216 * b3.toNat)

end Sys2Proof.Machine
end

