-- ==== Sys2Proof/Machine/Sine.lean ====
section
/-!
DEFINITION. The fixed-point sine function (40_sine_function.md): the reference function `SINE_REF` over
unbounded integers (R85), the configured SINE (R80 to R84), and two builds the spec describes, the
read-only memory (R87) and the private index register (R84).
-/

namespace Sys2Proof.Machine

/-- The index in the waveform's period: `p mod n` (R82, R84). -/
def sineIndex (p n : Word) : Nat := p.toNat % n.toNat

/-- The magnitude `mag` of R85 for the half-wave position `u`, floor division over the naturals. -/
def sineMag (u n : Nat) : Nat :=
  let q := u * (n - u)
  (16 * Config.sineAmpl * q) / (5 * n * n - 4 * q)

/-- `SINE_REF(p, n)` (R85). -/
def sineRef (p n : Nat) : Int :=
  let i := p % n
  if 2 * i < n then (sineMag (2 * i) n : Int) else -(sineMag (2 * i - n) n : Int)

/-- The configured SINE as a pattern, `bits32(SINE(p, n))` (R80). A table is indexed by `p mod n`. An
index beyond the table, or `n = 0`, occurs in no admitted configuration (log entry 6). -/
def sine (f : SineFn) (p n : Word) : Word :=
  match f with
  | .reference => bits32 (sineRef p.toNat n.toNat)
  | .table entries => entries.getD (sineIndex p n) 0

/-- The read-only memory of R87: 436 entries of 8 signed bits. -/
def sineRom : List Byte := (List.range 436).map fun i => BitVec.ofInt 8 (sineRef i 436)

/-- The shortened read-only memory of R87: indices 0 to 109. -/
def quarterRom : List Byte := (List.range 110).map fun i => BitVec.ofInt 8 (sineRef i 436)

/-- Reading the shortened memory (R87): 110 to 217 mirror, 218 to 435 are minus the first half. -/
def quarterSine (i : Nat) : Int :=
  let half (j : Nat) : Int := (quarterRom.getD (if j < 110 then j else 218 - j) 0).toInt
  if i < 218 then half i else -(half (i - 218))

/-- The private index register of R84 after a tick at `phase`: "stepped with wrap at `period`",
and back at 0 when `phase` itself wraps. -/
def indexStep (n phase : Word) (index : Nat) : Nat :=
  if phase + 1 = 0 then 0 else if index + 1 = n.toNat then 0 else index + 1

end Sys2Proof.Machine
end

