-- ==== Sys2Proof/Machine/Ops.lean ====
section
/-!
DEFINITION. The named operations of the block. Answering a command and `raise` (00_scope.md R14,
60_exceptions.md R141); the engine: tick, EMIT, `produce_bytes`, `reset_on_open`
(41_oscillator_engine.md R90 to R105); the gate: `acquire`, `release` (42_session_gate.md R111, R112);
the transfers on the channels; reset (70_reset_and_hazards.md R160).
-/

namespace Sys2Proof.Machine

/-- What a step answers. -/
abbrev Answer := Host.Outcome State Fault Refusal

/-- Apply `f` to the next state, leaving a fault or a refusal as it is. -/
def onNext (f : State → State) : Answer → Answer
  | .next s => .next (f s)
  | .fault r => .fault r
  | .refused r => .refused r

/-- `respond(s)` (R14, R65): the status goes on offer on the response channel. -/
def respond (st : Status) (s : State) : State := { s with rsp := some st }

/-- `raise E`: "send `respond(E)`, write no register, emit no byte, end the command" (R141). This is all
the exception machinery the block has: no trap entry, no saved state, no return (R148). -/
def raise (st : Status) (s : State) : Answer := .next (respond st s)

/-! The Oscillator Stream Engine. -/

/-- `SINE(p, period)` of this block, as a pattern (R80, R90). -/
def sampleAt (s : State) (p : Word) : Word := sine s.config.sine p s.period

/-- A tick: the new sample is SINE of the phase before the increment (R91 to R93). -/
def tick (s : State) : State :=
  { s with sample := sampleAt s s.phase, phase := s.phase + 1 }

/-- The value `s` of R90, from which the coming byte is selected: in a tick the sample just computed, "not
the old `sample` register" (R94); else the stored sample. -/
def currentSample (s : State) : Word :=
  if s.cursor = 0 then sampleAt s s.phase else s.sample

/-- The byte the next EMIT will send (R90, R94): the payload of `dat` while it is on offer (R177). -/
def nextByte (s : State) : Byte := byteSelect (currentSample s) s.cursor

/-- `emit(b)`: append `b` to the outgoing stream (R14, R41). -/
def emit (b : Byte) (s : State) : State := { s with trace := s.trace ++ [.byte b] }

/-- EMIT, one atomic step (R90): tick if due, send the selected byte, advance the cursor (R95). -/
def emitByte (s : State) : State :=
  let t := emit (nextByte s) (if s.cursor = 0 then tick s else s)
  { t with cursor := t.cursor + 1 }

/-- `produce_bytes(count)`: `count` EMIT steps (R96). -/
def produceBytes : Nat → State → State
  | 0, s => s
  | k + 1, s => produceBytes k (emitByte s)

/-- `reset_on_open()` (R104). -/
def resetOnOpen (s : State) : State := { s with cursor := 0 }

/-! The Session Gate. -/

/-- `acquire()`, test and set in one step (R111, R114); `none` is Busy, with nothing written. -/
def acquire (s : State) : Option State :=
  if isHeld s then none else some (resetOnOpen (setGate .held s))

/-- `release()` (R112). -/
def release (s : State) : State := setGate .free s

/-! The channels. -/

/-- No command is in progress: nothing is left to answer or to send (R177(e)). -/
def idle (s : State) : Bool := s.rsp.isNone && s.owed == 0

/-- The `cmd` transfer (R177(a)): the block accepts `w`, and the offer on the wires is over. -/
def accept (w : CmdWord) (s : State) : State :=
  { s with offered := none, trace := s.trace ++ [.command w] }

/-- The `rsp` transfer (R177(c)): the host takes the status on offer. -/
def takeStatus (s : State) : State :=
  match s.rsp with
  | some st => { s with rsp := none, trace := s.trace ++ [.status st] }
  | none => s

/-- `produce_bytes(count)` begins: `count` bytes are owed, one EMIT for each (R32(b), R122). -/
def beginBytes (count : Nat) (s : State) : State := { s with owed := BitVec.ofNat 32 count }

/-- The `dat` transfer (R177(d)): one EMIT of the READ in progress. -/
def serveByte (s : State) : State :=
  let t := emitByte s
  { t with owed := t.owed - 1 }

/-! Reset, configuration and the stream. -/

/-- A pulse of `rst` (R160, R161, R176): the registers of R29, the command in progress aborted, nothing
on offer. `period` is not written (R33). `wait` and `draws` are the clock edge's business (log entry 15). -/
def pulseReset (s : State) : State :=
  { s with
    phase := 0, sample := 0, cursor := 0, gate := .free
    owed := 0, rsp := none, offered := none
    trace := s.trace ++ [.reset] }

/-- Building a block: an illegal configuration is refused by name (R9, R163, U10, U11). -/
def powerOn (c : Config) : Answer :=
  if c.wf then .next (State.resetWith c) else .refused .illegalConfig

/-- The bytes in a list of transfers, in order. -/
def bytesIn : List Event → List Byte
  | [] => []
  | .byte b :: es => b :: bytesIn es
  | .command _ :: es | .status _ :: es | .reset :: es => bytesIn es

/-- The statuses in a list of transfers, in order. -/
def statusesIn : List Event → List Status
  | [] => []
  | .status st :: es => st :: statusesIn es
  | .command _ :: es | .byte _ :: es | .reset :: es => statusesIn es

/-- What follows the last reset mark, given what has followed the marks so far. -/
def sinceReset : List Event → List Event → List Event
  | seen, [] => seen
  | _, .reset :: es => sinceReset [] es
  | seen, .command w :: es => sinceReset (seen ++ [.command w]) es
  | seen, .status st :: es => sinceReset (seen ++ [.status st]) es
  | seen, .byte b :: es => sinceReset (seen ++ [.byte b]) es

/-- The stream: "the sequence of every `Byte` the block has emitted since reset" (R41). -/
def stream (s : State) : List Byte := bytesIn (sinceReset [] s.trace)

end Sys2Proof.Machine
end

