-- ==== Sys2Proof/Machine/Commands.lean ====
section
/-!
DEFINITION. The meanings of the four commands (43_commands.md), from acceptance to the choice of the
status (70_reset_and_hazards.md R177(b)). What follows, the `rsp` transfer and the EMIT steps of a READ,
is taken by the step function (Port.lean, Signals.lean).
-/

namespace Sys2Proof.Machine

/-- OPEN (R121): `acquire`, which runs `reset_on_open` on success; BUSY otherwise. `arg` is ignored. -/
def execOpen (_arg : Word) (s : State) : Answer :=
  match acquire s with
  | some t => .next (respond .ok t)
  | none => raise .busy s

/-- READ (R122, R123): the gate test comes first, also for `count = 0`. -/
def execRead (count : Word) (s : State) : Answer :=
  if isHeld s then .next (beginBytes (countOf count) (respond .ok s)) else raise .notHeld s

/-- WRITE (R124): always refused, in either gate state; `arg` is ignored. -/
def execWrite (_arg : Word) (s : State) : Answer := raise .unsupported s

/-- CLOSE (R125): `release`, in either gate state; `arg` is ignored. -/
def execClose (_arg : Word) (s : State) : Answer := .next (respond .ok (release s))

end Sys2Proof.Machine
end

