-- ==== Sys2Proof/Machine/Dispatch.lean ====
section
/-! DEFINITION. One arm per command (30_encoding.md R61). -/

namespace Sys2Proof.Machine

def exec (i : Instr) (s : State) : Host.Outcome State Fault Refusal :=
  match i with
  | .openCmd arg => Sys2Proof.Machine.execOpen arg s
  | .readCmd count => Sys2Proof.Machine.execRead count s
  | .writeCmd arg => Sys2Proof.Machine.execWrite arg s
  | .closeCmd arg => Sys2Proof.Machine.execClose arg s

end Sys2Proof.Machine
end

