-- ==== Sys2Proof/Machine/Port.lean ====
section
/-!
DEFINITION. The command port at the grain of decision D20: one step per command (with its status), then
one step per byte of a READ (00_scope.md R10, 20_memory.md R48, 43_commands.md R120); and whole commands,
run to completion.
-/

namespace Sys2Proof.Machine

/-- Accept the word `w`, run its command and hand over its status: the first step of every command
(R120; at the command level "a command's status belongs to its first step", R161). -/
def commandStep (w : CmdWord) (s : State) : Answer :=
  onNext takeStatus (exec (decode w) (accept w s))

/-- One step of the block with a willing host (R10, R48): hand over a status still on offer; else send
the next byte of the READ in progress; else accept the next command; else hold (R153). -/
def blockStep (s : State) : Answer :=
  if s.rsp.isSome then .next (takeStatus s)
  else if s.owed ≠ 0 then .next (serveByte s)
  else match s.commands with
    | [] => .next s
    | w :: ws => commandStep w { s with commands := ws }

/-- The EMIT steps of the READ in progress, all of them (R96). -/
def finish (s : State) : State := { produceBytes s.owed.toNat s with owed := 0 }

/-- One command run to completion, as the rules R121 to R125 write it (R48). -/
def complete (w : CmdWord) (s : State) : Answer := onNext finish (commandStep w s)

/-- A sequence of commands, each run to completion before the next (R48): what the laws R127(a) to (d) of
43_commands.md speak of. -/
def completeAll : List CmdWord → State → Answer
  | [], s => .next s
  | w :: ws, s =>
    match complete w s with
    | .next t => completeAll ws t
    | .fault r => .fault r
    | .refused r => .refused r

/-- A written command sequence (R69), each line run to completion; `RESET` pulses the reset input. -/
def runListing : List Line → State → Answer
  | [], s => .next s
  | l :: ls, s =>
    match l.command with
    | none => runListing ls (pulseReset s)
    | some i =>
      match complete (encode i) s with
      | .next t => runListing ls t
      | .fault r => .fault r
      | .refused r => .refused r

end Sys2Proof.Machine
end

