-- ==== Sys2Proof/Machine/Signals.lean ====
section
/-!
DEFINITION. The signal-level binding (70_reset_and_hazards.md R176 to R178): the outputs as a function of
the state, and one rising edge of `clk`. It runs the same commands and the same EMIT as Port.lean.
-/

namespace Sys2Proof.Machine

/-- The next offer will come after a number of edges the spec leaves open (R178): draw a free value. -/
def drawWait (s : State) : State :=
  { s with wait := Config.latency s.draws, draws := s.draws + 1 }

/-- `cmd_ready`: "1 only when no command is in progress" (R176). -/
def cmdReady (s : State) : Bool := idle s && s.wait == 0

/-- `rsp_valid` (R176, R177(c)). -/
def rspValid (s : State) : Bool := s.rsp.isSome && s.wait == 0

/-- `dat_valid`: bytes are owed and the status has been taken (R177(d)). -/
def datValid (s : State) : Bool := s.rsp.isNone && s.owed != 0 && s.wait == 0

/-- The output wires (R176). A payload is given while its `valid` is 1 and only then (log entry 14). -/
structure Outputs where
  cmdReady  : Bool
  rspStatus : Option (BitVec 2)
  dat       : Option Byte
  deriving DecidableEq, Repr

/-- The outputs in a state. -/
def outputs (s : State) : Outputs where
  cmdReady  := cmdReady s
  rspStatus := if rspValid s then s.rsp.map Status.code else none
  dat       := if datValid s then some (nextByte s) else none

/-- The host keeps a command on offer unchanged until it is accepted (R176; U14). -/
def handshakeKept (p : Pins) (s : State) : Bool :=
  match s.offered with
  | none => true
  | some w => p.cmdValid && p.cmd == w

/-- What the host has on offer after an edge at which its command was not accepted. -/
def offerOf (p : Pins) : Option CmdWord := if p.cmdValid then some p.cmd else none

/-- An edge with no transfer: the block waits on; an offered status or byte stays as it is; an idle
block may let `cmd_ready` fall again (R176 fixes only `valid`; log entry 11). -/
def waitEdge (s : State) : State :=
  if s.wait ≠ 0 then { s with wait := s.wait - 1 }
  else if idle s then drawWait s
  else s

/-- The transfers of an edge that accepts no command: at most one of `rsp` and `dat` (R177(c), (d)). -/
def serveEdge (p : Pins) (s : State) : State :=
  if rspValid s && p.rspReady then drawWait (takeStatus s)
  else if datValid s && p.datReady then drawWait (serveByte s)
  else waitEdge s

/-- One rising edge of `clk` (R176, R177). `rst` overrides everything (R177(f)). -/
def clockEdge (p : Pins) (s : State) : Answer :=
  if p.rst then .next (drawWait (pulseReset s))
  else if !handshakeKept p s then .refused .brokenHandshake
  else if cmdReady s && p.cmdValid then onNext drawWait (exec (decode p.cmd) (accept p.cmd s))
  else .next (serveEdge p { s with offered := offerOf p })

/-- Several edges in a row. -/
def clockEdges : List Pins → State → Answer
  | [], s => .next s
  | p :: ps, s =>
    match clockEdge p s with
    | .next t => clockEdges ps t
    | .fault r => .fault r
    | .refused r => .refused r

end Sys2Proof.Machine
end

