-- ==== Sys2Proof/Machine/Step.lean ====
section
/-!
DEFINITION. One step of the machine: whoever's turn it is moves (00_scope.md R10, 70_reset_and_hazards.md
R161); and how an instruction is put where the next step finds it.
-/

namespace Sys2Proof.Machine

def step (s : State) : Host.Outcome State Fault Refusal :=
  match s.schedule with
  | [] => blockStep s
  | .proceed :: ts => blockStep { s with schedule := ts }
  | .stall :: ts => .next { s with schedule := ts }
  | .reset :: ts => .next (pulseReset { s with schedule := ts })
  | .edge p :: ts => clockEdge p { s with schedule := ts }

/-- The host offers the word `w` to a block with no command in progress and lets it proceed: the very
next step accepts and runs it (log entry 3). A number wider than a command word is no command (log
entry 17) and changes nothing. -/
def State.withFetchWord (s : State) (_nbits w : Nat) : State :=
  if w < 2 ^ 34 then
    { s with
      owed := 0, rsp := none
      commands := BitVec.ofNat 34 w :: s.commands
      schedule := .proceed :: s.schedule }
  else s

end Sys2Proof.Machine
end

