-- ==== Sys2Proof/Safety.lean ====
section
/-!
DEFINITION. The terms the claims use: the tables of 30_encoding.md R66 and 42_session_gate.md R113 as
functions of their own, a monitor that judges a list of transfers by those tables alone, the invariant of
the state, the closed forms of 41_oscillator_engine.md R99 to R101, the command-level view of a
signal-level state, and the duties of the host (70_reset_and_hazards.md R165, R166, R175).
-/

namespace Sys2Proof.Machine

/-! The tables, written from R66 and R113 without looking at `exec`. -/

/-- Which status a command returns, given the gate before it and nothing else (R66, R127(e)). -/
def statusTable : Instr → Gate → Status
  | .openCmd _, .free => .ok
  | .openCmd _, .held => .busy
  | .readCmd _, .held => .ok
  | .readCmd _, .free => .notHeld
  | .writeCmd _, _ => .unsupported
  | .closeCmd _, _ => .ok

/-- How many bytes a command emits, given the gate before it (R66). -/
def bytesTable : Instr → Gate → Nat
  | .readCmd count, .held => count.toNat
  | .readCmd _, .free => 0
  | .openCmd _, _ | .writeCmd _, _ | .closeCmd _, _ => 0

/-- The gate after a command, given the gate before it (R113, R149). -/
def gateTable : Instr → Gate → Gate
  | .openCmd _, _ => .held
  | .closeCmd _, _ => .free
  | .readCmd _, g | .writeCmd _, g => g

/-- The command is answered with an error status (R140): what R127(b) says can be deleted. -/
def answersError (i : Instr) (g : Gate) : Bool := statusTable i g != .ok

/-! The monitor. -/

/-- What a watcher of the three channels knows: the gate, the status that must come next, and how many
bytes are still to come (R66, R113, R177). -/
structure Monitor where
  gate : Gate
  rsp  : Option Status
  owed : Nat
  deriving DecidableEq, Repr

/-- The monitor after reset. -/
def Monitor.start : Monitor where
  gate := .free
  rsp  := none
  owed := 0

/-- One transfer: accepted only if the rules allow it here. A command comes when nothing is in progress
(R177(a), (e)); exactly the status of the table follows (R177(c)); then exactly the bytes of the table
(R177(d)); a reset may come at any point (R161). -/
def Monitor.next (m : Monitor) : Event → Option Monitor
  | .command w =>
    if m.rsp = none ∧ m.owed = 0 then
      some { gate := gateTable (decode w) m.gate
             rsp  := some (statusTable (decode w) m.gate)
             owed := bytesTable (decode w) m.gate }
    else none
  | .status st => if m.rsp = some st then some { m with rsp := none } else none
  | .byte _ => if m.rsp = none ∧ 0 < m.owed then some { m with owed := m.owed - 1 } else none
  | .reset => some Monitor.start

/-- A list of transfers, from the oldest on. -/
def Monitor.run (m : Monitor) : List Event → Option Monitor
  | [] => some m
  | e :: es =>
    match m.next e with
    | some m' => m'.run es
    | none => none

/-- What the monitor must know when the block is in state `s`. -/
def monitorOf (s : State) : Monitor where
  gate := s.gate
  rsp  := s.rsp
  owed := s.owed.toNat

/-- Every transfer so far was as the rules say, and the state is where they lead. -/
def State.Monitored (s : State) : Prop := Monitor.start.run s.trace = some (monitorOf s)

/-! The invariant. -/

/-- R9, R30(b), and "no read may proceed without holding the session" (R123): bytes are owed only while
the gate is held, and never behind an error status (R141). -/
structure State.Inv (s : State) : Prop where
  config_wf     : s.config.wf = true
  period_config : s.period = s.config.periodWord
  owed_held     : s.owed ≠ 0 → s.gate = .held
  error_no_byte : ∀ st, s.rsp = some st → st ≠ .ok → s.owed = 0

/-! Closed forms. -/

/-- `T(c, k) = ((c + k + 3) div 4) - ((c + 3) div 4)`, the ticks of `k` EMIT steps from `cursor = c`
(R101). -/
def tickCount (c k : Nat) : Nat := (c + k + 3) / 4 - (c + 3) / 4

/-- Byte `j` of the run from a sample boundary at phase `p0` (R99). -/
def closedByte (s : State) (p0 : Word) (j : Nat) : Byte :=
  byteSelect (sampleAt s (p0 + BitVec.ofNat 32 (j / 4))) (BitVec.ofNat 2 (j % 4))

/-! The two grains. -/

/-- A signal-level state as the command level sees it: the status of a command belongs to its first
step (R161), so one still on offer counts as taken; edges and the handshake are not seen. -/
def atCommandGrain (s : State) : State :=
  { takeStatus s with wait := 0, draws := 0, offered := none }

/-- The host takes whatever is offered, offers no command and does not reset. -/
def drainPins : Pins where
  rst      := false
  cmdValid := false
  cmd      := 0
  rspReady := true
  datReady := true

/-! The host's duties (R165, R166, R175). The machine never assumes them. -/

/-- A command and the caller that sent it; the block cannot see the caller (R115). -/
structure Call where
  caller : Nat
  cmd    : Instr
  deriving DecidableEq, Repr

/-- "Whoever last had an OPEN answered OK and has not closed since" (R17), after one call. -/
def holderAfter (holder : Option Nat) (g : Gate) (c : Call) : Option Nat :=
  match c.cmd with
  | .openCmd _ => if g = .free then some c.caller else holder
  | .closeCmd _ => none
  | .readCmd _ | .writeCmd _ => holder

/-- H-2 and H-3: a READ and a CLOSE are sent only by the holder. -/
def dutiful (holder : Option Nat) (c : Call) : Bool :=
  match c.cmd with
  | .readCmd _ | .closeCmd _ => holder == some c.caller
  | .openCmd _ | .writeCmd _ => true

/-- A sequence of calls in which every caller does its duty. -/
def disciplined : Option Nat → Gate → List Call → Bool
  | _, _, [] => true
  | holder, g, c :: cs =>
    dutiful holder c && disciplined (holderAfter holder g c) (gateTable c.cmd g) cs

/-- The host's stream-offset counter over a sequence of commands: add `count` for each READ answered OK
(R126). The block never sees it (R31). Its width is open (20_memory.md R47, 91_not_in_source.md N7);
DESIGN CHOICE (log entry 29): a natural number that never wraps. -/
def hostOffset : Gate → List CmdWord → Nat
  | _, [] => 0
  | g, w :: ws => bytesTable (decode w) g + hostOffset (gateTable (decode w) g) ws

end Sys2Proof.Machine
end

