-- ==== Sys2Proof/Certificates/Slice0/Obligations.lean ====
section
/-!
DEFINITION. The statements for the provers. Each docstring names the rule of the spec a statement
formalises, or says that it is derived and from what. `s` and `t` range over ALL states, so over all
builds (`s.config`) and, through `SineFn.table`, over all admitted SINEs, unless a premise says otherwise.
-/

open Sys2Proof Sys2Proof.Machine

/-! Encoding. -/

/-- 30_encoding.md R60 to R64: no bit of a command word is dropped, in either direction. -/
def Obligations.DecodeAndEncodeAreInverse : Prop :=
  (∀ i : Instr, decode (encode i) = i) ∧ ∀ w : CmdWord, encode (decode w) = w

/-- The `match` and `mask` columns of 30_encoding.md R61, with the operand of R62 and R63. -/
def Obligations.MaskAndMatchSelectTheCommand : Prop :=
  ∀ w : CmdWord,
    (w &&& 0x300000000#34 = 0x000000000#34 ↔ decode w = .openCmd (w.setWidth 32)) ∧
    (w &&& 0x300000000#34 = 0x100000000#34 ↔ decode w = .readCmd (w.setWidth 32)) ∧
    (w &&& 0x300000000#34 = 0x200000000#34 ↔ decode w = .writeCmd (w.setWidth 32)) ∧
    (w &&& 0x300000000#34 = 0x300000000#34 ↔ decode w = .closeCmd (w.setWidth 32))

/-- Sanity: one word of each command, written out bit by bit from the encodings of R61, and the words
V2, V5, V6 and V8 of 95_test_vectors.md. -/
def Obligations.SpelledOutWordsDecode : Prop :=
  decode 0b00_00000000000000000000000000000000#34 = .openCmd 0 ∧
  decode 0b01_00000000000000000000000000000100#34 = .readCmd 4 ∧
  decode 0b10_00000000000000000000000000000000#34 = .writeCmd 0 ∧
  decode 0b11_00000000000000000000000000000000#34 = .closeCmd 0 ∧
  decode 0x0FFFFFFFF#34 = .openCmd 0xFFFFFFFF ∧
  decode 0x1FFFFFFFF#34 = .readCmd 0xFFFFFFFF ∧
  decode 0x2DEADBEEF#34 = .writeCmd 0xDEADBEEF ∧
  decode 0x312345678#34 = .closeCmd 0x12345678

/-- 30_encoding.md R63: "every value of `cmd[31:0]` gives the same behaviour". -/
def Obligations.OperandOfOpenWriteCloseIsIgnored : Prop :=
  ∀ (a b : Word) (s : State),
    exec (.openCmd a) s = exec (.openCmd b) s ∧
    exec (.writeCmd a) s = exec (.writeCmd b) s ∧
    exec (.closeCmd a) s = exec (.closeCmd b) s

/-! The four commands: result, frame and completion in one equation each. -/

/-- 43_commands.md R121, 42_session_gate.md R111, both arms: from `Free` only `gate`, `cursor` and the status
change; from `Held` the status BUSY and nothing else, the holder's `cursor` least of all. -/
def Obligations.OpenTakesTheGateOrAnswersBusy : Prop :=
  ∀ (a : Word) (s : State),
    (s.gate = .free →
      exec (.openCmd a) s = .next { s with gate := .held, cursor := 0, rsp := some .ok }) ∧
    (s.gate = .held → exec (.openCmd a) s = .next { s with rsp := some .busy })

/-- 60_exceptions.md R141, 43_commands.md R123, R124: a command answered with an error (OPEN while held, READ
while free, also `READ 0`, every WRITE) sends that status and changes nothing else at all. -/
def Obligations.ErrorsOnlyAnswer : Prop :=
  ∀ (i : Instr) (s : State), answersError i s.gate = true →
    exec i s = .next { s with rsp := some (statusTable i s.gate) }

/-- 43_commands.md R122 at acceptance (70_reset_and_hazards.md R177(b)): status OK, `count` bytes owed,
no register written. The bytes follow by `ReadRunsToCompletion`. -/
def Obligations.ReadWhileHeldIsServed : Prop :=
  ∀ (n : Word) (s : State), s.gate = .held →
    exec (.readCmd n) s = .next { s with rsp := some .ok, owed := n }

/-- 43_commands.md R124: in either gate state, for every `arg`; the command's own effect is this answer. -/
def Obligations.WriteIsUnsupported : Prop :=
  ∀ (a : Word) (s : State), exec (.writeCmd a) s = .next { s with rsp := some .unsupported }

/-- 43_commands.md R125: in either gate state; `cursor`, `phase` and `sample` stay. -/
def Obligations.CloseFreesTheGate : Prop :=
  ∀ (a : Word) (s : State), exec (.closeCmd a) s = .next { s with gate := .free, rsp := some .ok }

/-- The table of 30_encoding.md R66: the status, and how many bytes become owed, depend on the command
and the gate only. (`statusTable` and `bytesTable` are the table; `exec` does not use them.) A command
runs with none in progress, so the premise that nothing is owed. -/
def Obligations.StatusAndBytesAreTheTable : Prop :=
  ∀ (i : Instr) (s : State), s.owed = 0 →
    ∃ t, exec i s = .next t ∧ t.rsp = some (statusTable i s.gate) ∧
      t.owed.toNat = bytesTable i s.gate

/-- 42_session_gate.md R113, the gate's state machine, with its "other writes": `acquire` on `Free` also
clears `cursor` (`reset_on_open`, 41_oscillator_engine.md R104); nothing else is written. Reset writes what
10_state.md R29 says; READ and WRITE "are not events of this machine". -/
def Obligations.GateStateMachine : Prop :=
  ∀ s : State,
    (s.gate = .free → acquire s = some { s with gate := .held, cursor := 0 }) ∧
    (s.gate = .held → acquire s = none) ∧
    release s = { s with gate := .free } ∧
    ((pulseReset s).gate = .free ∧ (pulseReset s).phase = 0 ∧ (pulseReset s).sample = 0 ∧
      (pulseReset s).cursor = 0 ∧ (pulseReset s).period = s.period) ∧
    ∀ (a : Word) (t : State), exec (.readCmd a) s = .next t ∨ exec (.writeCmd a) s = .next t →
      t.gate = s.gate

/-- 10_state.md R33, the rows of the commands: at its acceptance no command writes `phase`, `period` or
`sample`; `cursor` only by an OPEN answered OK, `gate` only by that and by CLOSE. Frame of all four. -/
def Obligations.CommandsWriteOnlyTheirRow : Prop :=
  ∀ (i : Instr) (s t : State), exec i s = .next t →
    t.phase = s.phase ∧ t.period = s.period ∧ t.sample = s.sample ∧
    t.config = s.config ∧ t.trace = s.trace ∧ t.commands = s.commands ∧ t.schedule = s.schedule ∧
    t.offered = s.offered ∧ t.wait = s.wait ∧ t.draws = s.draws ∧
    (t.cursor ≠ s.cursor → (∃ a, i = .openCmd a) ∧ s.gate = .free ∧ t.cursor = 0) ∧
    (t.gate ≠ s.gate →
      ((∃ a, i = .openCmd a) ∧ t.rsp = some .ok ∧ t.gate = .held) ∨
      ((∃ a, i = .closeCmd a) ∧ t.gate = .free)) ∧
    (t.owed ≠ s.owed → (∃ n, i = .readCmd n) ∧ s.gate = .held)

/-! The engine. -/

/-- EMIT (41_oscillator_engine.md R90) in its two rows of 10_state.md R33: with `cursor = 0` the sample is
SINE of the phase BEFORE the increment and the byte comes from the new sample; otherwise no tick. -/
def Obligations.EmitIsOneByteStep : Prop :=
  ∀ s : State,
    (s.cursor = 0 → emitByte s = { s with
      sample := sampleAt s s.phase, phase := s.phase + 1, cursor := 1
      trace := s.trace ++ [.byte ((sampleAt s s.phase).extractLsb' 0 8)] }) ∧
    (s.cursor ≠ 0 → emitByte s = { s with
      cursor := s.cursor + 1
      trace := s.trace ++ [.byte (s.sample.extractLsb' (8 * s.cursor.toNat) 8)] })

/-- 30_encoding.md R67, 41_oscillator_engine.md R94: the multiplexer's bytes as quotients of the pattern, the two
short forms, and the decoder's inverse `s = signed32(b0 + 256*b1 + 65536*b2 + 16777216*b3)`. -/
def Obligations.SampleBytesAndTheirInverse : Prop :=
  ∀ s : Int, -2 ^ 31 ≤ s → s < 2 ^ 31 →
    (∀ k : Cursor, (byteSelect (bits32 s) k).toNat = (bits32 s).toNat / 2 ^ (8 * k.toNat) % 256) ∧
    (0 ≤ s → s < 256 → byteSelect (bits32 s) 0 = BitVec.ofInt 8 s ∧
      ∀ k : Cursor, k ≠ 0 → byteSelect (bits32 s) k = 0x00#8) ∧
    (-256 ≤ s → s < 0 → byteSelect (bits32 s) 0 = BitVec.ofInt 8 (s + 256) ∧
      ∀ k : Cursor, k ≠ 0 → byteSelect (bits32 s) k = 0xFF#8) ∧
    s = signed32 (joinBytes (byteSelect (bits32 s) 0) (byteSelect (bits32 s) 1)
      (byteSelect (bits32 s) 2) (byteSelect (bits32 s) 3))

/-- 41_oscillator_engine.md R93: the tick at `phase = 2^32 - 1` computes SINE of that phase and leaves 0;
the increment is exactly 1 per sample, not per byte. -/
def Obligations.PhaseWrapsSilently : Prop :=
  ∀ s : State,
    (s.cursor = 0 → s.phase = 0xFFFFFFFF#32 →
      (emitByte s).phase = 0 ∧ (emitByte s).sample = sampleAt s 0xFFFFFFFF#32) ∧
    (produceBytes 4 s).phase = s.phase + 1

/-- 41_oscillator_engine.md R102: after `k` EMIT steps `cursor = (c + k) mod 4`, and byte number `j` begins a
new sample computation and phase increment iff `(c + j) mod 4 = 0`. -/
def Obligations.CursorLaw : Prop :=
  ∀ (k : Nat) (s : State),
    (produceBytes k s).cursor.toNat = (s.cursor.toNat + k) % 4 ∧
    ((s.cursor.toNat + k) % 4 = 0 ↔
      (produceBytes (k + 1) s).phase = (produceBytes k s).phase + 1) ∧
    ((s.cursor.toNat + k) % 4 = 0 →
      (produceBytes (k + 1) s).sample = sampleAt s (produceBytes k s).phase) ∧
    ((s.cursor.toNat + k) % 4 ≠ 0 → (produceBytes (k + 1) s).phase = (produceBytes k s).phase ∧
      (produceBytes (k + 1) s).sample = (produceBytes k s).sample)

/-- 41_oscillator_engine.md R101: the number of ticks, and so the phase after `k` EMIT steps; `T(c, k)` counts
the `j < k` with `(c + j) mod 4 = 0`; and the particular values the rule lists. -/
def Obligations.PhaseAdvanceLaw : Prop :=
  (∀ (k : Nat) (s : State),
    (produceBytes k s).phase = s.phase + BitVec.ofNat 32 (tickCount s.cursor.toNat k)) ∧
  (∀ c k, c < 4 → tickCount c k = ((List.range k).filter fun j => (c + j) % 4 = 0).length) ∧
  (∀ c K, tickCount c (4 * K) = K) ∧ (∀ k, tickCount 0 k = (k + 3) / 4) ∧
  (∀ c k, c < 4 → c ≠ 0 → k ≤ 4 - c → tickCount c k = 0) ∧ tickCount 0 1 = 1

/-- 41_oscillator_engine.md R99: the closed form from a sample boundary, bytes and end state, and the frame. -/
def Obligations.ClosedFormFromSampleBoundary : Prop :=
  ∀ (k : Nat) (s : State), s.cursor = 0 →
    produceBytes k s = { s with
      trace := s.trace ++ (List.range k).map fun j => .byte (closedByte s s.phase j)
      phase := s.phase + BitVec.ofNat 32 ((k + 3) / 4)
      cursor := BitVec.ofNat 2 (k % 4)
      sample := if k = 0 then s.sample
        else sampleAt s (s.phase + BitVec.ofNat 32 ((k + 3) / 4 - 1)) }

/-- 41_oscillator_engine.md R100: the closed form from inside a sample. The first bytes come from the stored
sample with no tick; the rest is the run of R99 from the boundary. -/
def Obligations.ClosedFormInsideSample : Prop :=
  ∀ (k : Nat) (s : State), s.cursor ≠ 0 →
    (k ≤ 4 - s.cursor.toNat → produceBytes k s = { s with
      cursor := s.cursor + BitVec.ofNat 2 k
      trace := s.trace ++ (List.range k).map fun j =>
        .byte (byteSelect s.sample (s.cursor + BitVec.ofNat 2 j)) }) ∧
    (4 - s.cursor.toNat < k → produceBytes k s =
      produceBytes (k - (4 - s.cursor.toNat)) { s with
        cursor := 0
        trace := s.trace ++ (List.range (4 - s.cursor.toNat)).map fun j =>
          .byte (byteSelect s.sample (s.cursor + BitVec.ofNat 2 j)) })

/-- 41_oscillator_engine.md R98: bytes concatenate, end states agree. -/
def Obligations.ProducingIsResumable : Prop :=
  ∀ (a b : Nat) (s : State), ∃ x y : List Byte, x.length = a ∧ y.length = b ∧
    (produceBytes a s).trace = s.trace ++ x.map .byte ∧
    (produceBytes b (produceBytes a s)).trace = (produceBytes a s).trace ++ y.map .byte ∧
    (produceBytes (a + b) s).trace = s.trace ++ (x ++ y).map .byte ∧
    produceBytes (a + b) s = produceBytes b (produceBytes a s)

/-- 20_memory.md R53, 43_commands.md R127(a): while held, reads of any lengths give the same bytes and
end in the same registers as one read of the sum, whenever that is a READ operand. -/
def Obligations.SplitReadsEqualOneRead : Prop :=
  ∀ (ns : List Nat) (s : State), idle s = true → s.gate = .held → ns.sum < 2 ^ 32 →
    ∃ t u, completeAll (ns.map fun n => encode (.readCmd (BitVec.ofNat 32 n))) s = .next t ∧
      complete (encode (.readCmd (BitVec.ofNat 32 ns.sum))) s = .next u ∧
      bytesIn t.trace = bytesIn u.trace ∧
      (bytesIn t.trace).length = (bytesIn s.trace).length + ns.sum ∧
      { t with trace := u.trace, offered := u.offered } = u

/-- 41_oscillator_engine.md R103, the periodic part: byte `j` equals byte `j + 4N` as long as the window does
not cross the wrap of `phase`. -/
def Obligations.StreamIsPeriodicBelowTheWrap : Prop :=
  ∀ (s : State) (j : Nat), s.period ≠ 0 →
    s.phase.toNat + j / 4 + s.period.toNat < 2 ^ 32 →
      closedByte s s.phase (j + 4 * s.period.toNat) = closedByte s s.phase j

/-- 41_oscillator_engine.md R103, the wrap: at period 436 the index jumps from 183 to 0, and for a general
period the jump is absent exactly when the period divides 2^32, that is when it is a power of two. -/
def Obligations.WrapJumpsUnlessPeriodIsPowerOfTwo : Prop :=
  2 ^ 32 % 436 = 184 ∧ sineIndex 0xFFFFFFFF#32 436 = 183 ∧ sineIndex 0 436 = 0 ∧
  ∀ n : Word, n ≠ 0 →
    ((sineIndex 0xFFFFFFFF#32 n + 1) % n.toNat = sineIndex 0 n ↔ n.toNat ∣ 2 ^ 32) ∧
    (n.toNat ∣ 2 ^ 32 ↔ ∃ k, n.toNat = 2 ^ k)

/-- 20_memory.md R41: the stream is every byte emitted since reset, in order; `emit` appends to it, and
producing `n` bytes appends `n` of them, for every `n`. -/
def Obligations.StreamIsTheBytesSinceReset : Prop :=
  ∀ s : State,
    stream (pulseReset s) = [] ∧ (∀ b, stream (emit b s) = stream s ++ [b]) ∧
    ∀ n, ∃ bs : List Byte, bs.length = n ∧ stream (produceBytes n s) = stream s ++ bs

/-- 41_oscillator_engine.md R105, 43_commands.md R121, R125: a session closed at any cursor and opened again
continues with a NEW sample, that of the current phase; the owed bytes of the old one are never sent. -/
def Obligations.ReopeningDropsTheOwedBytes : Prop :=
  ∀ (a b : Word) (s : State), idle s = true → s.gate = .held →
    ∃ t, completeAll [encode (.closeCmd a), encode (.openCmd b), encode (.readCmd 4)] s = .next t ∧
      bytesIn t.trace = bytesIn s.trace ++
        [(sampleAt s s.phase).extractLsb' 0 8, (sampleAt s s.phase).extractLsb' 8 8,
         (sampleAt s s.phase).extractLsb' 16 8, (sampleAt s s.phase).extractLsb' 24 8] ∧
      t.phase = s.phase + 1 ∧ t.cursor = 0 ∧ t.gate = .held

/-! The sine function. -/

/-- 40_sine_function.md R82, for every build. -/
def Obligations.SineIsPeriodic : Prop :=
  ∀ (f : SineFn) (p n : Word), n ≠ 0 → sine f p n = sine f (p % n) n

/-- Derived from 40_sine_function.md R80 to R83 (log entry 5): every total, pure, periodic SINE at a legal
period is one of the model's table builds, so a claim for all builds is a claim for every admitted SINE. -/
def Obligations.EveryAdmittedSineIsSomeBuild : Prop :=
  ∀ (n : Word) (f : Word → Int), n ≠ 0 → (∀ p, -2 ^ 31 ≤ f p ∧ f p < 2 ^ 31) →
    (∀ p, f p = f (p % n)) →
    ∃ g : SineFn, g.fits n.toNat = true ∧ ∀ p, signed32 (sine g p n) = f p

/-- 40_sine_function.md R86(b), (e): bound and sign of `SINE_REF`. -/
def Obligations.SineRefBoundAndSign : Prop :=
  ∀ p n : Nat, 1 ≤ n →
    -127 ≤ sineRef p n ∧ sineRef p n ≤ 127 ∧
    (2 * (p % n) < n → 0 ≤ sineRef p n) ∧ (n ≤ 2 * (p % n) → sineRef p n ≤ 0)

/-- 40_sine_function.md R86(c), (f): zeros and peaks of `SINE_REF`. -/
def Obligations.SineRefZerosAndPeaks : Prop :=
  ∀ p n : Nat, 1 ≤ n →
    (p % n = 0 → sineRef p n = 0) ∧
    (n % 2 = 0 → p % n = n / 2 → sineRef p n = 0) ∧
    (n % 4 = 0 → p % n = n / 4 → sineRef p n = 127) ∧
    (n % 4 = 0 → p % n = 3 * (n / 4) → sineRef p n = -127)

/-- 40_sine_function.md R86(d), (g): the half-wave antisymmetry and the symmetry inside a half-wave. -/
def Obligations.SineRefSymmetries : Prop :=
  (∀ p n : Nat, 1 ≤ n → n % 2 = 0 → sineRef (p + n / 2) n = -sineRef p n) ∧
  (∀ u n : Nat, u ≤ n → sineMag u n = sineMag (n - u) n)

/-- 40_sine_function.md R84, R87, the builds the spec describes: the 436-entry memory and the 110-entry memory
give `SINE_REF`, and the private index register stays equal to `phase mod period` at every tick, the wrap of
`phase` included. -/
def Obligations.DescribedBuildsAreRight : Prop :=
  (∀ p : Word,
    bits32 (sineRef p.toNat 436) = (sineRom.getD (sineIndex p 436) 0).signExtend 32 ∧
    sineRef p.toNat 436 = quarterSine (sineIndex p 436)) ∧
  ∀ n phase : Word, n ≠ 0 →
    indexStep n phase (sineIndex phase n) = sineIndex (phase + 1) n

/-! Sequences of commands. -/

/-- 43_commands.md R127(c): `CLOSE; OPEN` while held is `reset_on_open`, but for the transfers themselves. -/
def Obligations.CloseThenOpenIsResetOnOpen : Prop :=
  ∀ (a b : Word) (s : State), idle s = true → s.gate = .held →
    ∃ t, completeAll [encode (.closeCmd a), encode (.openCmd b)] s = .next t ∧
      { t with trace := s.trace, offered := s.offered } = resetOnOpen s ∧
      statusesIn t.trace = statusesIn s.trace ++ [.ok, .ok] ∧ bytesIn t.trace = bytesIn s.trace

/-- 43_commands.md R127(b): a command answered with an error can be deleted; every later status and byte,
and every later register, is as without it. -/
def Obligations.ErrorAnsweredCommandsCanBeDeleted : Prop :=
  ∀ (w : CmdWord) (ws : List CmdWord) (s : State), idle s = true → s.offered = none →
    answersError (decode w) s.gate = true →
    ∃ (t : State) (later : List Event), completeAll ws s = .next t ∧ t.trace = s.trace ++ later ∧
      completeAll (w :: ws) s = .next { t with
        trace := s.trace ++ [.command w, .status (statusTable (decode w) s.gate)] ++ later }

/-- 42_session_gate.md R114, 20_memory.md R50: of any number of OPENs racing from `Free`, exactly the first
to be accepted succeeds. -/
def Obligations.FirstOfRacingOpensWins : Prop :=
  ∀ (a : Word) (rest : List Word) (s : State), idle s = true → s.gate = .free →
    ∃ t, completeAll ((a :: rest).map fun x => encode (.openCmd x)) s = .next t ∧
      statusesIn t.trace = statusesIn s.trace ++ .ok :: List.replicate rest.length .busy ∧
      t.gate = .held ∧ t.cursor = 0 ∧ t.phase = s.phase ∧ t.sample = s.sample

/-- 43_commands.md R127(d): from reset, with no session closed mid-sample, `phase = ceil(B/4) mod 2^32` for the
`B` bytes emitted. For every build. -/
def Obligations.PhaseCountsSamplesFromReset : Prop :=
  ∀ (c : Config) (ws : List CmdWord) (t : State),
    (∀ (done rest : List CmdWord) (w : CmdWord) (a : Word) (u : State),
      ws = done ++ w :: rest → decode w = .closeCmd a →
      completeAll done (State.resetWith c) = .next u → u.cursor = 0) →
    completeAll ws (State.resetWith c) = .next t →
    t.phase = BitVec.ofNat 32 (((bytesIn t.trace).length + 3) / 4)

/-- 43_commands.md R126, R122 ("exactly `count`, never short"): the host's offset counter, which adds `count`
for each READ answered OK, is the number of bytes the block has sent. -/
def Obligations.OffsetCounterCountsTheBytes : Prop :=
  ∀ (ws : List CmdWord) (s t : State), idle s = true → completeAll ws s = .next t →
    (bytesIn t.trace).length = (bytesIn s.trace).length + hostOffset s.gate ws

/-- 70_reset_and_hazards.md R162, 41_oscillator_engine.md R92: the first output after reset, for every build:
byte `j` is byte `j mod 4` of SINE(`j div 4`). -/
def Obligations.FirstOutputAfterReset : Prop :=
  ∀ (c : Config) (a n : Word), ∃ t,
    completeAll [encode (.openCmd a), encode (.readCmd n)] (State.resetWith c) = .next t ∧
    statusesIn t.trace = [.ok, .ok] ∧
    bytesIn t.trace = (List.range n.toNat).map fun j =>
      byteSelect (sine c.sine (BitVec.ofNat 32 (j / 4)) c.periodWord) (BitVec.ofNat 2 (j % 4))

/-- Derived from 70_reset_and_hazards.md R165, R166, R175: with callers who do their duty (only the holder
sends READ and CLOSE), no READ is answered NOT_HELD. -/
def Obligations.DutifulHostNeverSeesNotHeld : Prop :=
  ∀ (calls : List Call) (s t : State), idle s = true → s.gate = .free →
    disciplined none .free calls = true →
    completeAll (calls.map fun c => encode c.cmd) s = .next t →
    ∃ later, t.trace = s.trace ++ later ∧ .status .notHeld ∉ later

/-! The machine. -/

/-- 43_commands.md R120, 00_scope.md R10: with a willing host, no command in progress and the word `w` next
at the port, a step accepts `w`, runs the decoded command and hands over its status. The host is willing
when its schedule says so or says nothing (the model's choice, log entry 2). -/
def Obligations.StepRunsTheDecodedCommand : Prop :=
  ∀ (s : State) (w : CmdWord) (ws : List CmdWord) (ts : List Turn), s.rsp = none → s.owed = 0 →
    s.commands = w :: ws → (s.schedule = [] ∧ ts = []) ∨ s.schedule = .proceed :: ts →
    step s = onNext takeStatus (exec (decode w)
      { s with
        commands := ws, schedule := ts, offered := none, trace := s.trace ++ [.command w] })

/-- 43_commands.md R122, 92_eei_decisions.md D20: a READ answered OK is a status step and then exactly `count`
EMIT steps; together they are `produce_bytes(count)`. -/
def Obligations.ReadRunsToCompletion : Prop :=
  ∀ (s : State) (n : Word) (ws : List CmdWord), s.rsp = none → s.owed = 0 → s.gate = .held →
    s.commands = encode (.readCmd n) :: ws → s.schedule = [] →
    Host.Core.run Sys2Proof.core (n.toNat + 1) s = .next (produceBytes n.toNat { s with
      commands := ws, offered := none
      trace := s.trace ++ [.command (encode (.readCmd n)), .status .ok] })

/-- 20_memory.md R48: the steps of a whole command, whatever it is, are the command run to completion. -/
def Obligations.StepsOfACommandAreTheCommand : Prop :=
  ∀ (s : State) (w : CmdWord) (ws : List CmdWord), s.rsp = none → s.owed = 0 →
    s.commands = w :: ws → s.schedule = [] →
    Host.Core.run Sys2Proof.core (bytesTable (decode w) s.gate + 1) s =
      complete w { s with commands := ws }

/-- 70_reset_and_hazards.md R160, R161: a reset pulse at any point of any command. `period` stays. -/
def Obligations.ResetAbortsWhateverRuns : Prop :=
  ∀ (s : State) (ts : List Turn), s.schedule = .reset :: ts →
    step s = .next { s with
      phase := 0, sample := 0, cursor := 0, gate := .free
      owed := 0, rsp := none, offered := none
      schedule := ts, trace := s.trace ++ [.reset] }

/-- 10_state.md R29: the five registers after reset, for every build. The value of `sample` is the spec's own
choice (decision D14, log entry 8); `State.reset` takes the default parameters (log entry 5). -/
def Obligations.ResetValues : Prop :=
  (∀ c : Config,
    (State.resetWith c).phase = 0 ∧ (State.resetWith c).period = c.periodWord ∧
    (State.resetWith c).sample = 0 ∧ (State.resetWith c).cursor = 0 ∧
    (State.resetWith c).gate = .free) ∧
  State.reset = State.resetWith Config.standard ∧ Config.standard.period = 436

/-- 00_scope.md R9, 70_reset_and_hazards.md R163, 93_implementation_defined.md U10, U11: exactly the legal
configurations are built; the others, a SINE that does not fit the period among them, are refused. -/
def Obligations.IllegalConfigurationsAreRefused : Prop :=
  ∀ c : Config,
    (c.toneHz = 0 ∨ c.sampleRate < c.toneHz ∨ 2 ^ 32 ≤ c.sampleRate / c.toneHz →
      powerOn c = .refused .illegalConfig) ∧
    (c.toneHz ≠ 0 → c.toneHz ≤ c.sampleRate → c.sampleRate / c.toneHz < 2 ^ 32 →
      c.sine.fits (c.sampleRate / c.toneHz) = true → powerOn c = .next (State.resetWith c)) ∧
    (c.sine.fits (c.sampleRate / c.toneHz) = false → powerOn c = .refused .illegalConfig)

/-- 10_state.md R22, 00_scope.md R9: `period` and the parameters are "written by nothing". -/
def Obligations.PeriodAndParametersAreConstant : Prop :=
  ∀ s t : State, step s = .next t → t.period = s.period ∧ t.config = s.config

/-- Whole-machine rule of 41_oscillator_engine.md R91, R93 and 10_state.md R33: `phase` and `sample` change only
when a reset fires or in the EMIT of a byte that finds `cursor = 0`, and then as R90 says. -/
def Obligations.OnlyTicksMoveThePhase : Prop :=
  ∀ s t : State, step s = .next t → t.phase ≠ s.phase ∨ t.sample ≠ s.sample →
    t.trace = s.trace ++ [.reset] ∨
    (s.cursor = 0 ∧ s.owed ≠ 0 ∧ s.rsp = none ∧ t.phase = s.phase + 1 ∧
      t.sample = sampleAt s s.phase ∧ t.cursor = 1 ∧ ∃ b, t.trace = s.trace ++ [.byte b])

/-- 60_exceptions.md R149: "`Held` is entered only by a successful OPEN and left only by CLOSE or reset." -/
def Obligations.GateMovesOnlyByOpenCloseReset : Prop :=
  ∀ s t : State, step s = .next t →
    (s.gate = .free → t.gate = .held → ∃ w a later, decode w = .openCmd a ∧
      t.trace = s.trace ++ .command w :: later ∧ t.cursor = 0) ∧
    (s.gate = .held → t.gate = .free → t.trace = s.trace ++ [.reset] ∨
      ∃ w a later, decode w = .closeCmd a ∧ t.trace = s.trace ++ .command w :: later)

/-- The invariant at reset, for every legal build (10_state.md R29, R30(b)). -/
def Obligations.InvariantHoldsAtReset : Prop :=
  State.reset.Inv ∧ ∀ c : Config, c.wf = true → (State.resetWith c).Inv

/-- The invariant: `period` is the build's constant (10_state.md R30(b)), and bytes are owed only under a
held gate and never behind an error. Every step keeps it. -/
def Obligations.EveryStepKeepsTheInvariant : Prop :=
  ∀ s t : State, s.Inv → step s = .next t → t.Inv

/-- 30_encoding.md R66, 42_session_gate.md R113, 70_reset_and_hazards.md R177: whatever the host does, the list of
transfers obeys the tables: each command is followed by exactly its one status, then exactly its bytes, and
the gate moves by R113. From reset it holds; every step keeps it. -/
def Obligations.EveryStepObeysTheProtocol : Prop :=
  (∀ c : Config, (State.resetWith c).Monitored) ∧
  ∀ s t : State, s.Monitored → step s = .next t → t.Monitored

/-- 10_state.md R30(c), 70_reset_and_hazards.md R174: at a sample boundary the stored sample, and so its reset
value, reaches no output: two runs that differ in it have the same transfers, step for step. -/
def Obligations.OldSampleIsUnobservable : Prop :=
  ∀ (k : Nat) (s : State) (v : Word), s.cursor = 0 →
    (∀ t, Host.Core.run Sys2Proof.core k s = .next t →
      ∃ v', Host.Core.run Sys2Proof.core k { s with sample := v } = .next { t with sample := v' }) ∧
    (∀ r, Host.Core.run Sys2Proof.core k s = .refused r →
      Host.Core.run Sys2Proof.core k { s with sample := v } = .refused r)

/-- 70_reset_and_hazards.md R173, 30_encoding.md R64: the block never halts. A step stops only where the host breaks
the handshake on the wires (U14), in particular never at the command level; and every such edge is refused by
that name, which is the model's choice (log entry 13). -/
def Obligations.OnlyABrokenHandshakeStops : Prop :=
  (∀ s : State,
    (∃ t, step s = .next t) ∨
    (step s = .refused .brokenHandshake ∧ ∃ p ts w, s.schedule = .edge p :: ts ∧
      p.rst = false ∧ s.offered = some w ∧ (p.cmdValid = false ∨ p.cmd ≠ w))) ∧
  ∀ (s : State) (p : Pins) (ts : List Turn) (w : CmdWord), s.schedule = .edge p :: ts →
    p.rst = false → s.offered = some w → p.cmdValid = false ∨ p.cmd ≠ w →
    step s = .refused .brokenHandshake

/-- 92_eei_decisions.md D20, 20_memory.md R48, 70_reset_and_hazards.md R170, 60_exceptions.md R153: the steps that run
no command. With bytes owed, one EMIT, whatever commands wait; a stalled turn, and an idle block with no
command at the port, leave the block as it is. -/
def Obligations.StepsThatRunNoCommand : Prop :=
  (∀ s : State, s.rsp = none → s.owed ≠ 0 → s.schedule = [] →
    step s = .next { emitByte s with owed := s.owed - 1 }) ∧
  (∀ (s : State) (ts : List Turn), s.schedule = .stall :: ts → step s = .next { s with schedule := ts }) ∧
  ∀ s : State, s.rsp = none → s.owed = 0 → s.commands = [] → s.schedule = [] → step s = .next s

/-! The signals. -/

/-- 70_reset_and_hazards.md R177(f), R176, R161: `rst` at any edge overrides all the rest: the command in progress is
aborted, its status and its bytes are never sent, and no output is valid after it but possibly `cmd_ready`. -/
def Obligations.ResetEdgeOverrides : Prop :=
  ∀ (p : Pins) (s : State), p.rst = true →
    ∃ t, clockEdge p s = .next t ∧
      t.phase = 0 ∧ t.sample = 0 ∧ t.cursor = 0 ∧ t.gate = .free ∧ t.period = s.period ∧
      t.owed = 0 ∧ t.rsp = none ∧ t.offered = none ∧
      t.trace = s.trace ++ [.reset] ∧ (outputs t).rspStatus = none ∧ (outputs t).dat = none

/-- 70_reset_and_hazards.md R177(a), (b): at the `cmd` transfer the command runs: its register writes and its
status are those of `exec`, and `cmd_ready` is 0 until the command is complete. -/
def Obligations.AcceptanceRunsTheCommand : Prop :=
  ∀ (p : Pins) (s : State), p.rst = false → cmdReady s = true → p.cmdValid = true →
    handshakeKept p s = true →
    ∃ t u, exec (decode p.cmd) (accept p.cmd s) = .next t ∧ clockEdge p s = .next u ∧
      u = { t with wait := u.wait, draws := s.draws + 1 } ∧
      u.rsp = some (statusTable (decode p.cmd) s.gate) ∧ (outputs u).cmdReady = false

/-- 70_reset_and_hazards.md R177(d): a `dat` transfer sends the byte on the wires, is one EMIT, and none
comes before the `rsp` transfer. -/
def Obligations.DataTransferIsOneEmit : Prop :=
  ∀ (p : Pins) (s : State) (b : Byte), p.rst = false → handshakeKept p s = true →
    (outputs s).dat = some b → p.datReady = true →
    s.rsp = none ∧ ∃ t, clockEdge p s = .next t ∧ t.trace = s.trace ++ [.byte b] ∧
      t = { emitByte s with
        owed := s.owed - 1, offered := offerOf p, wait := t.wait, draws := s.draws + 1 }

/-- 70_reset_and_hazards.md R176: "once `valid` is 1 it and its payload stay unchanged until the transfer (or
`rst`)", for both output channels. -/
def Obligations.ValidOutputsStayUntilTaken : Prop :=
  ∀ (p : Pins) (s t : State), p.rst = false → clockEdge p s = .next t →
    (∀ c, (outputs s).rspStatus = some c → p.rspReady = false → (outputs t).rspStatus = some c) ∧
    (∀ b, (outputs s).dat = some b → p.datReady = false → (outputs t).dat = some b)

/-- 70_reset_and_hazards.md R170: with bytes owed and a host that takes none and does not reset, nothing happens,
for any number of edges: no command is accepted, no byte is lost, the registers stand still. -/
def Obligations.UntakenByteStallsTheBlock : Prop :=
  ∀ (ps : List Pins) (s t : State), s.rsp = none → s.owed ≠ 0 →
    (∀ p ∈ ps, p.rst = false ∧ p.datReady = false) → clockEdges ps s = .next t →
    t = { s with offered := t.offered, wait := t.wait } ∧ (outputs t).cmdReady = false

/-- 70_reset_and_hazards.md R178, liveness: if the host takes what is offered, then after finitely many edges the
command in progress is complete and `cmd_ready` is 1. Rests on nothing about the free latency but that it is
finite. -/
def Obligations.WillingHostSeesReadyAgain : Prop :=
  ∀ s : State, s.offered = none →
    ∃ k t, clockEdges (List.replicate k drainPins) s = .next t ∧ (outputs t).cmdReady = true

/-- 70_reset_and_hazards.md R176, R177 against 43_commands.md: a clock edge without `rst` is, at the command level,
the block step of the transfer it makes: a whole command step for a `cmd` transfer, one EMIT for a `dat`
transfer, and nothing for any other edge. -/
def Obligations.SignalLevelRefinesCommandLevel : Prop :=
  ∀ (p : Pins) (s t : State), p.rst = false → clockEdge p s = .next t →
    (cmdReady s = true → p.cmdValid = true →
      blockStep { atCommandGrain s with commands := p.cmd :: s.commands } =
        .next (atCommandGrain t)) ∧
    (datValid s = true → p.datReady = true →
      blockStep (atCommandGrain s) = .next (atCommandGrain t)) ∧
    (¬(cmdReady s = true ∧ p.cmdValid = true) → ¬(datValid s = true ∧ p.datReady = true) →
      atCommandGrain t = atCommandGrain s)
end

