-- ==== Sys2Proof/Laws/Decode.lean ====
section
/-!
SUPPORT. The fields of an encoded command and of a decoded word (30_encoding.md R60, R61): what later
proofs about encodings cite instead of unfolding the bit operations.
-/

namespace Sys2Proof

@[simp] theorem opField_encode (i : Instr) : opField (encode i) = opOf i := by
  apply BitVec.eq_of_getLsbD_eq
  intro k hk
  simp [opField, encode, hk, show 32 + k < 34 by omega]

@[simp] theorem argField_encode (i : Instr) : argField (encode i) = argOf i := by
  apply BitVec.eq_of_getLsbD_eq
  intro k hk
  simp [argField, encode, hk]
  omega

/-- The four values of a 2-bit field. -/
theorem two_bits (v : BitVec 2) : v = 0 ∨ v = 1 ∨ v = 2 ∨ v = 3 := by
  revert v; decide

@[simp] theorem opOf_decode (w : CmdWord) : opOf (decode w) = opField w := by
  rcases two_bits (opField w) with h | h | h | h <;> simp [decode, h, opOf]

@[simp] theorem argOf_decode (w : CmdWord) : argOf (decode w) = argField w := by
  rcases two_bits (opField w) with h | h | h | h <;> simp [decode, h, argOf]

end Sys2Proof
end

