-- ==== Sys2Proof/Laws/State.lean ====
section
/-!
SUPPORT. What each record update of the model leaves in each field, so that no later proof unfolds one:
the written fields first, then the frame.
-/

namespace Sys2Proof.Machine

@[simp] theorem setGate_fields (g : Gate) (s : State) :
    (setGate g s).gate = g ∧ (setGate g s).phase = s.phase ∧ (setGate g s).period = s.period ∧
    (setGate g s).sample = s.sample ∧ (setGate g s).cursor = s.cursor ∧
    (setGate g s).owed = s.owed ∧ (setGate g s).rsp = s.rsp ∧ (setGate g s).offered = s.offered ∧
    (setGate g s).wait = s.wait ∧ (setGate g s).draws = s.draws ∧ (setGate g s).config = s.config ∧
    (setGate g s).commands = s.commands ∧ (setGate g s).schedule = s.schedule ∧
    (setGate g s).trace = s.trace := by and_intros <;> rfl

@[simp] theorem respond_fields (st : Status) (s : State) :
    (respond st s).rsp = some st ∧ (respond st s).phase = s.phase ∧
    (respond st s).period = s.period ∧ (respond st s).sample = s.sample ∧
    (respond st s).cursor = s.cursor ∧ (respond st s).gate = s.gate ∧
    (respond st s).owed = s.owed ∧ (respond st s).offered = s.offered ∧
    (respond st s).wait = s.wait ∧ (respond st s).draws = s.draws ∧
    (respond st s).config = s.config ∧ (respond st s).commands = s.commands ∧
    (respond st s).schedule = s.schedule ∧ (respond st s).trace = s.trace := by and_intros <;> rfl

@[simp] theorem resetOnOpen_fields (s : State) :
    (resetOnOpen s).cursor = 0 ∧ (resetOnOpen s).phase = s.phase ∧
    (resetOnOpen s).period = s.period ∧ (resetOnOpen s).sample = s.sample ∧
    (resetOnOpen s).gate = s.gate ∧ (resetOnOpen s).owed = s.owed ∧ (resetOnOpen s).rsp = s.rsp ∧
    (resetOnOpen s).offered = s.offered ∧ (resetOnOpen s).wait = s.wait ∧
    (resetOnOpen s).draws = s.draws ∧ (resetOnOpen s).config = s.config ∧
    (resetOnOpen s).commands = s.commands ∧ (resetOnOpen s).schedule = s.schedule ∧
    (resetOnOpen s).trace = s.trace := by and_intros <;> rfl

@[simp] theorem beginBytes_fields (n : Nat) (s : State) :
    (beginBytes n s).owed = BitVec.ofNat 32 n ∧ (beginBytes n s).phase = s.phase ∧
    (beginBytes n s).period = s.period ∧ (beginBytes n s).sample = s.sample ∧
    (beginBytes n s).cursor = s.cursor ∧ (beginBytes n s).gate = s.gate ∧
    (beginBytes n s).rsp = s.rsp ∧ (beginBytes n s).offered = s.offered ∧
    (beginBytes n s).wait = s.wait ∧ (beginBytes n s).draws = s.draws ∧
    (beginBytes n s).config = s.config ∧ (beginBytes n s).commands = s.commands ∧
    (beginBytes n s).schedule = s.schedule ∧ (beginBytes n s).trace = s.trace := by
  and_intros <;> rfl

@[simp] theorem tick_fields (s : State) :
    (tick s).sample = sampleAt s s.phase ∧ (tick s).phase = s.phase + 1 ∧
    (tick s).period = s.period ∧ (tick s).cursor = s.cursor ∧ (tick s).gate = s.gate ∧
    (tick s).owed = s.owed ∧ (tick s).rsp = s.rsp ∧ (tick s).offered = s.offered ∧
    (tick s).wait = s.wait ∧ (tick s).draws = s.draws ∧ (tick s).config = s.config ∧
    (tick s).commands = s.commands ∧ (tick s).schedule = s.schedule ∧
    (tick s).trace = s.trace := by and_intros <;> rfl

@[simp] theorem emit_fields (b : Byte) (s : State) :
    (emit b s).trace = s.trace ++ [.byte b] ∧ (emit b s).phase = s.phase ∧
    (emit b s).period = s.period ∧ (emit b s).sample = s.sample ∧ (emit b s).cursor = s.cursor ∧
    (emit b s).gate = s.gate ∧ (emit b s).owed = s.owed ∧ (emit b s).rsp = s.rsp ∧
    (emit b s).offered = s.offered ∧ (emit b s).wait = s.wait ∧ (emit b s).draws = s.draws ∧
    (emit b s).config = s.config ∧ (emit b s).commands = s.commands ∧
    (emit b s).schedule = s.schedule := by and_intros <;> rfl

@[simp] theorem accept_fields (w : CmdWord) (s : State) :
    (accept w s).trace = s.trace ++ [.command w] ∧ (accept w s).offered = none ∧
    (accept w s).phase = s.phase ∧ (accept w s).period = s.period ∧
    (accept w s).sample = s.sample ∧ (accept w s).cursor = s.cursor ∧ (accept w s).gate = s.gate ∧
    (accept w s).owed = s.owed ∧ (accept w s).rsp = s.rsp ∧ (accept w s).wait = s.wait ∧
    (accept w s).draws = s.draws ∧ (accept w s).config = s.config ∧
    (accept w s).commands = s.commands ∧ (accept w s).schedule = s.schedule := by
  and_intros <;> rfl

@[simp] theorem drawWait_fields (s : State) :
    (drawWait s).wait = Config.latency s.draws ∧ (drawWait s).draws = s.draws + 1 ∧
    (drawWait s).phase = s.phase ∧ (drawWait s).period = s.period ∧
    (drawWait s).sample = s.sample ∧ (drawWait s).cursor = s.cursor ∧ (drawWait s).gate = s.gate ∧
    (drawWait s).owed = s.owed ∧ (drawWait s).rsp = s.rsp ∧ (drawWait s).offered = s.offered ∧
    (drawWait s).config = s.config ∧ (drawWait s).commands = s.commands ∧
    (drawWait s).schedule = s.schedule ∧ (drawWait s).trace = s.trace := by and_intros <;> rfl

@[simp] theorem pulseReset_fields (s : State) :
    (pulseReset s).phase = 0 ∧ (pulseReset s).sample = 0 ∧ (pulseReset s).cursor = 0 ∧
    (pulseReset s).gate = .free ∧ (pulseReset s).owed = 0 ∧ (pulseReset s).rsp = none ∧
    (pulseReset s).offered = none ∧ (pulseReset s).trace = s.trace ++ [.reset] ∧
    (pulseReset s).period = s.period ∧ (pulseReset s).config = s.config ∧
    (pulseReset s).wait = s.wait ∧ (pulseReset s).draws = s.draws ∧
    (pulseReset s).commands = s.commands ∧ (pulseReset s).schedule = s.schedule := by
  and_intros <;> rfl

/-- The `rsp` transfer moves the status from `rsp` to the trace and touches nothing else. -/
theorem takeStatus_eq (s : State) :
    takeStatus s = { s with
      rsp := none
      trace := s.trace ++ s.rsp.toList.map Event.status } := by
  cases s with
  | mk phase period sample cursor gate owed rsp => cases rsp <;> simp [takeStatus]

@[simp] theorem takeStatus_fields (s : State) :
    (takeStatus s).rsp = none ∧ (takeStatus s).phase = s.phase ∧
    (takeStatus s).period = s.period ∧ (takeStatus s).sample = s.sample ∧
    (takeStatus s).cursor = s.cursor ∧ (takeStatus s).gate = s.gate ∧
    (takeStatus s).owed = s.owed ∧ (takeStatus s).offered = s.offered ∧
    (takeStatus s).wait = s.wait ∧ (takeStatus s).draws = s.draws ∧
    (takeStatus s).config = s.config ∧ (takeStatus s).commands = s.commands ∧
    (takeStatus s).schedule = s.schedule ∧
    (takeStatus s).trace = s.trace ++ s.rsp.toList.map Event.status := by
  simp [takeStatus_eq]

/-- EMIT written out (R90): the one place where it is unfolded. -/
theorem emitByte_eq (s : State) :
    emitByte s = { s with
      phase := if s.cursor = 0 then s.phase + 1 else s.phase
      sample := if s.cursor = 0 then sampleAt s s.phase else s.sample
      cursor := s.cursor + 1
      trace := s.trace ++ [.byte (nextByte s)] } := by
  unfold emitByte
  split <;> rfl

@[simp] theorem emitByte_fields (s : State) :
    (emitByte s).cursor = s.cursor + 1 ∧
    (emitByte s).phase = (if s.cursor = 0 then s.phase + 1 else s.phase) ∧
    (emitByte s).sample = (if s.cursor = 0 then sampleAt s s.phase else s.sample) ∧
    (emitByte s).trace = s.trace ++ [.byte (nextByte s)] ∧
    (emitByte s).period = s.period ∧ (emitByte s).gate = s.gate ∧ (emitByte s).owed = s.owed ∧
    (emitByte s).rsp = s.rsp ∧ (emitByte s).offered = s.offered ∧ (emitByte s).wait = s.wait ∧
    (emitByte s).draws = s.draws ∧ (emitByte s).config = s.config ∧
    (emitByte s).commands = s.commands ∧ (emitByte s).schedule = s.schedule := by
  simp [emitByte_eq]

@[simp] theorem serveByte_fields (s : State) :
    (serveByte s).owed = s.owed - 1 ∧ (serveByte s).cursor = s.cursor + 1 ∧
    (serveByte s).phase = (if s.cursor = 0 then s.phase + 1 else s.phase) ∧
    (serveByte s).sample = (if s.cursor = 0 then sampleAt s s.phase else s.sample) ∧
    (serveByte s).trace = s.trace ++ [.byte (nextByte s)] ∧
    (serveByte s).period = s.period ∧ (serveByte s).gate = s.gate ∧ (serveByte s).rsp = s.rsp ∧
    (serveByte s).offered = s.offered ∧ (serveByte s).wait = s.wait ∧
    (serveByte s).draws = s.draws ∧ (serveByte s).config = s.config ∧
    (serveByte s).commands = s.commands ∧ (serveByte s).schedule = s.schedule := by
  simp [serveByte]

end Sys2Proof.Machine
end

