-- ==== Sys2Proof/Laws/Engine.lean ====
section
/-!
SUPPORT. `produce_bytes` said once: its bytes as a list, what it leaves alone, and how it composes
(41_oscillator_engine.md R96 to R98).
-/

namespace Sys2Proof.Machine

theorem currentSample_eq (s : State) :
    currentSample s = if s.cursor = 0 then sampleAt s s.phase else s.sample := rfl

theorem nextByte_eq (s : State) : nextByte s = byteSelect (currentSample s) s.cursor := rfl

theorem emitByte_sample (s : State) : (emitByte s).sample = currentSample s := by
  rw [emitByte_eq]; rfl

/-- The bytes that `k` EMIT steps send. -/
def producedBytes : Nat → State → List Byte
  | 0, _ => []
  | k + 1, s => nextByte s :: producedBytes k (emitByte s)

@[simp] theorem producedBytes_length (k : Nat) (s : State) : (producedBytes k s).length = k := by
  induction k generalizing s with
  | zero => rfl
  | succ k ih => simp [producedBytes, ih]

theorem produceBytes_add (a b : Nat) (s : State) :
    produceBytes (a + b) s = produceBytes b (produceBytes a s) := by
  induction a generalizing s with
  | zero => simp [produceBytes]
  | succ a ih => simp [Nat.succ_add, produceBytes, ih]

theorem producedBytes_add (a b : Nat) (s : State) :
    producedBytes (a + b) s = producedBytes a s ++ producedBytes b (produceBytes a s) := by
  induction a generalizing s with
  | zero => simp [producedBytes, produceBytes]
  | succ a ih => simp [Nat.succ_add, producedBytes, produceBytes, ih]

/-- The frame of `produce_bytes`: it "has no side effect beyond mutating OscillatorState" (R97). -/
@[simp] theorem produceBytes_fields (k : Nat) (s : State) :
    (produceBytes k s).trace = s.trace ++ (producedBytes k s).map Event.byte ∧
    (produceBytes k s).cursor = s.cursor + BitVec.ofNat 2 k ∧
    (produceBytes k s).period = s.period ∧ (produceBytes k s).gate = s.gate ∧
    (produceBytes k s).owed = s.owed ∧ (produceBytes k s).rsp = s.rsp ∧
    (produceBytes k s).offered = s.offered ∧ (produceBytes k s).wait = s.wait ∧
    (produceBytes k s).draws = s.draws ∧ (produceBytes k s).config = s.config ∧
    (produceBytes k s).commands = s.commands ∧ (produceBytes k s).schedule = s.schedule := by
  induction k generalizing s with
  | zero => simp [produceBytes, producedBytes]
  | succ k ih =>
    simp only [produceBytes, producedBytes, ih, emitByte_fields, List.map_cons,
      List.append_assoc, List.singleton_append, true_and, and_true]
    rw [BitVec.add_assoc, BitVec.add_comm 1, ← BitVec.ofNat_add_ofNat]
    rfl

/-- Two engines that agree on the oscillator registers and the build send the same bytes. -/
theorem producedBytes_congr (k : Nat) (s t : State) (hp : s.phase = t.phase)
    (hn : s.period = t.period) (hc : s.cursor = t.cursor) (hs : s.cursor = 0 ∨ s.sample = t.sample)
    (hg : s.config = t.config) : producedBytes k s = producedBytes k t := by
  induction k generalizing s t with
  | zero => rfl
  | succ k ih =>
    have hcur : currentSample s = currentSample t := by
      by_cases h0 : t.cursor = 0
      · simp only [currentSample, hc, if_pos h0, sampleAt, hp, hn, hg]
      · simp only [currentSample, hc, if_neg h0, hs.resolve_left (hc ▸ h0)]
    have hb : nextByte s = nextByte t := by rw [nextByte_eq, nextByte_eq, hcur, hc]
    have hsample : (emitByte s).sample = (emitByte t).sample := by
      rw [emitByte_sample, emitByte_sample, hcur]
    simp only [producedBytes, hb]
    rw [ih (emitByte s) (emitByte t) (by simp [hp, hc]) (by simp [hn]) (by simp [hc])
      (.inr hsample) (by simp [hg])]

@[simp] theorem bytesIn_append (a b : List Event) : bytesIn (a ++ b) = bytesIn a ++ bytesIn b := by
  induction a with
  | nil => rfl
  | cons e es ih => cases e <;> simp [bytesIn, ih]

@[simp] theorem statusesIn_append (a b : List Event) :
    statusesIn (a ++ b) = statusesIn a ++ statusesIn b := by
  induction a with
  | nil => rfl
  | cons e es ih => cases e <;> simp [statusesIn, ih]

@[simp] theorem bytesIn_map_byte (bs : List Byte) : bytesIn (bs.map Event.byte) = bs := by
  induction bs with
  | nil => rfl
  | cons b bs ih => simp [bytesIn, ih]

@[simp] theorem statusesIn_map_byte (bs : List Byte) : statusesIn (bs.map Event.byte) = [] := by
  induction bs with
  | nil => rfl
  | cons b bs ih => simp [statusesIn, ih]

end Sys2Proof.Machine
end

