-- ==== Sys2Proof/Laws/PerInstr.lean ====
section
/-! SUPPORT. Statements made per command, one lemma per constructor of `Instr` (LAWS.json). -/

namespace Sys2Proof.Laws.Fields

/-- The two fields of the command's word are its `op` code and its operand (30_encoding.md R60, R61). -/
def Statement (i : Instr) : Prop := opField (encode i) = opOf i ∧ argField (encode i) = argOf i

theorem openCmd (a : Word) : Statement (.openCmd a) := ⟨opField_encode _, argField_encode _⟩
theorem readCmd (n : Word) : Statement (.readCmd n) := ⟨opField_encode _, argField_encode _⟩
theorem writeCmd (a : Word) : Statement (.writeCmd a) := ⟨opField_encode _, argField_encode _⟩
theorem closeCmd (a : Word) : Statement (.closeCmd a) := ⟨opField_encode _, argField_encode _⟩

end Sys2Proof.Laws.Fields
end

