-- ==== Sys2Proof/Laws/Step.lean ====
section
/-!
SUPPORT. Everything a command, a block step, a clock edge and a machine step can do, said once as
inversion lemmas; later proofs cite these and do not unfold the functions.
-/

namespace Sys2Proof.Machine

/-- The six rows of the status table (30_encoding.md R66), each with its whole effect. -/
theorem exec_cases (i : Instr) (s : State) :
    (∃ a, i = .openCmd a ∧ s.gate = .free ∧
      exec i s = .next { s with gate := .held, cursor := 0, rsp := some .ok }) ∨
    (∃ a, i = .openCmd a ∧ s.gate = .held ∧ exec i s = .next { s with rsp := some .busy }) ∨
    (∃ n, i = .readCmd n ∧ s.gate = .held ∧
      exec i s = .next { s with rsp := some .ok, owed := n }) ∨
    (∃ n, i = .readCmd n ∧ s.gate = .free ∧ exec i s = .next { s with rsp := some .notHeld }) ∨
    (∃ a, i = .writeCmd a ∧ exec i s = .next { s with rsp := some .unsupported }) ∨
    (∃ a, i = .closeCmd a ∧ exec i s = .next { s with gate := .free, rsp := some .ok }) := by
  cases i with
  | openCmd a =>
    cases hg : s.gate <;>
      simp [exec, execOpen, acquire, isHeld, hg, raise, respond, resetOnOpen, setGate]
  | readCmd n =>
    cases hg : s.gate <;>
      simp [exec, execRead, isHeld, hg, raise, respond, beginBytes, countOf]
  | writeCmd a => simp [exec, execWrite, raise, respond]
  | closeCmd a => simp [exec, execClose, respond, release, setGate]

/-- Every command is answered: `exec` always gives a next state. -/
theorem exec_next (i : Instr) (s : State) : ∃ t, exec i s = .next t := by
  rcases exec_cases i s with ⟨a, -, -, h⟩ | ⟨a, -, -, h⟩ | ⟨n, -, -, h⟩ | ⟨n, -, -, h⟩ | ⟨a, -, h⟩ |
    ⟨a, -, h⟩ <;> exact ⟨_, h⟩

theorem idle_iff (s : State) : idle s = true ↔ s.rsp = none ∧ s.owed = 0 := by
  simp [idle]

/-- What one command step gives. -/
theorem commandStep_next (w : CmdWord) (s : State) :
    ∃ t, exec (decode w) (accept w s) = .next t ∧ commandStep w s = .next (takeStatus t) := by
  obtain ⟨t, h⟩ := exec_next (decode w) (accept w s)
  exact ⟨t, h, by simp [commandStep, h, onNext]⟩

/-- The four things a block step can be. -/
theorem blockStep_cases (s : State) :
    (∃ st, s.rsp = some st ∧ blockStep s = .next (takeStatus s)) ∨
    (s.rsp = none ∧ s.owed ≠ 0 ∧ blockStep s = .next (serveByte s)) ∨
    (s.rsp = none ∧ s.owed = 0 ∧ s.commands = [] ∧ blockStep s = .next s) ∨
    (s.rsp = none ∧ s.owed = 0 ∧ ∃ w ws, s.commands = w :: ws ∧
      blockStep s = commandStep w { s with commands := ws }) := by
  unfold blockStep
  cases hr : s.rsp with
  | some st => simp
  | none =>
    by_cases ho : s.owed = 0
    · cases hc : s.commands <;> simp [ho]
    · exact .inr (.inl ⟨rfl, ho, by simp only [Option.isSome_none, Bool.false_eq_true, if_false,
        if_pos ho]⟩)

/-- The six things a clock edge can be. -/
theorem clockEdge_cases (p : Pins) (s : State) :
    (p.rst = true ∧ clockEdge p s = .next (drawWait (pulseReset s))) ∨
    (p.rst = false ∧ handshakeKept p s = false ∧ clockEdge p s = .refused .brokenHandshake) ∨
    (p.rst = false ∧ handshakeKept p s = true ∧ cmdReady s = true ∧ p.cmdValid = true ∧
      ∃ t, exec (decode p.cmd) (accept p.cmd s) = .next t ∧ clockEdge p s = .next (drawWait t)) ∨
    (p.rst = false ∧ handshakeKept p s = true ∧ rspValid s = true ∧ p.rspReady = true ∧
      clockEdge p s = .next (drawWait (takeStatus { s with offered := offerOf p }))) ∨
    (p.rst = false ∧ handshakeKept p s = true ∧ datValid s = true ∧ p.datReady = true ∧
      clockEdge p s = .next (drawWait (serveByte { s with offered := offerOf p }))) ∨
    (p.rst = false ∧ handshakeKept p s = true ∧ (cmdReady s && p.cmdValid) = false ∧
      (rspValid s && p.rspReady) = false ∧ (datValid s && p.datReady) = false ∧
      clockEdge p s = .next (waitEdge { s with offered := offerOf p })) := by
  have hrv : rspValid { s with offered := offerOf p } = rspValid s := rfl
  have hdv : datValid { s with offered := offerOf p } = datValid s := rfl
  unfold clockEdge
  by_cases hrst : p.rst = true
  · simp [hrst]
  by_cases hk : handshakeKept p s = true
  · by_cases hc : (cmdReady s && p.cmdValid) = true
    · obtain ⟨t, ht⟩ := exec_next (decode p.cmd) (accept p.cmd s)
      obtain ⟨h1, h2⟩ := Bool.and_eq_true_iff.mp hc
      simp [hrst, hk, h1, h2, ht, onNext]
    · by_cases hr : (rspValid s && p.rspReady) = true
      · obtain ⟨h1, h2⟩ := Bool.and_eq_true_iff.mp hr
        simp [hrst, hk, hc, serveEdge, hrv, h1, h2]
      · by_cases hd : (datValid s && p.datReady) = true
        · obtain ⟨h1, h2⟩ := Bool.and_eq_true_iff.mp hd
          simp [hrst, hk, hc, serveEdge, hrv, hdv, hr, h1, h2]
        · simp [hrst, hk, hc, serveEdge, hrv, hdv, hr, hd]
  · simp [hrst, hk]

/-- An edge with no transfer changes `wait` and `draws` only. -/
theorem waitEdge_eq (s : State) :
    waitEdge s = { s with wait := (waitEdge s).wait, draws := (waitEdge s).draws } := by
  unfold waitEdge drawWait
  split
  · rfl
  · split <;> rfl

/-- The cursor a command leaves before its first byte: 0 after a successful OPEN (R121). -/
def cursorAfter (i : Instr) (s : State) : Cursor :=
  match i, s.gate with
  | .openCmd _, .free => 0
  | .openCmd _, .held => s.cursor
  | .readCmd _, _ | .writeCmd _, _ | .closeCmd _, _ => s.cursor

/-- The block without the host's lists and the signal-level bookkeeping. -/
def State.block (s : State) : State :=
  { s with offered := none, wait := 0, draws := 0, commands := [], schedule := [] }

/-- What one step can do to the block: nothing, a status taken, a byte served, a command run (its status
handed over or still on offer), or a reset. -/
def BlockMove (s t : State) : Prop :=
  t.block = s.block ∨
  (∃ st, s.rsp = some st ∧ t.block = takeStatus s.block) ∨
  (s.rsp = none ∧ s.owed ≠ 0 ∧ t.block = serveByte s.block) ∨
  (s.rsp = none ∧ s.owed = 0 ∧ ∃ w u, exec (decode w) (accept w s.block) = .next u ∧
    (t.block = u ∨ t.block = takeStatus u)) ∨
  t.block = pulseReset s.block

theorem takeStatus_block (s : State) : (takeStatus s).block = takeStatus s.block := by
  rw [takeStatus_eq, takeStatus_eq]; rfl

theorem nextByte_block (s : State) : nextByte s.block = nextByte s := by
  rw [nextByte_eq, nextByte_eq]; rfl

theorem serveByte_block (s : State) : (serveByte s).block = serveByte s.block := by
  unfold serveByte; rw [emitByte_eq, emitByte_eq, nextByte_block]; rfl

/-- A command does to the block the same whatever the host has lined up. -/
theorem exec_block {w : CmdWord} {s u : State} (h : exec (decode w) (accept w s) = .next u) :
    exec (decode w) (accept w s.block) = .next u.block := by
  rcases exec_cases (decode w) (accept w s) with ⟨a, hi, hg, he⟩ | ⟨a, hi, hg, he⟩ |
    ⟨a, hi, hg, he⟩ | ⟨a, hi, hg, he⟩ | ⟨a, hi, he⟩ | ⟨a, hi, he⟩ <;>
    rw [he] at h <;> cases h <;> rw [hi] <;>
    simp_all [exec, execOpen, execRead, execWrite, execClose, acquire, isHeld, raise, respond,
      beginBytes, countOf, release, setGate, resetOnOpen, State.block, accept]

theorem blockStep_move {s t : State} (h : blockStep s = .next t) : BlockMove s t := by
  rcases blockStep_cases s with ⟨st, hst, h'⟩ | ⟨h1, h2, h'⟩ | ⟨-, -, -, h'⟩ | ⟨h1, h2, w, ws, -, h'⟩
  · rw [h'] at h; cases h
    exact .inr (.inl ⟨st, hst, takeStatus_block s⟩)
  · rw [h'] at h; cases h
    exact .inr (.inr (.inl ⟨h1, h2, serveByte_block s⟩))
  · rw [h'] at h; cases h
    exact .inl rfl
  · obtain ⟨u, hu, hc⟩ := commandStep_next w { s with commands := ws }
    rw [h', hc] at h; cases h
    exact .inr (.inr (.inr (.inl ⟨h1, h2, w, u.block,
      exec_block (s := { s with commands := ws }) hu, .inr (takeStatus_block u)⟩)))

theorem clockEdge_move {p : Pins} {s t : State} (h : clockEdge p s = .next t) : BlockMove s t := by
  rcases clockEdge_cases p s with ⟨-, h'⟩ | ⟨-, -, h'⟩ | ⟨-, -, hr, -, u, hu, h'⟩ | ⟨-, -, hr, -, h'⟩ |
    ⟨-, -, hr, -, h'⟩ | ⟨-, -, -, -, -, h'⟩ <;> rw [h'] at h <;> cases h
  · exact .inr (.inr (.inr (.inr rfl)))
  · simp only [cmdReady, Bool.and_eq_true] at hr
    obtain ⟨h1, h2⟩ := (idle_iff s).mp hr.1
    exact .inr (.inr (.inr (.inl ⟨h1, h2, p.cmd, u.block, exec_block hu, .inl rfl⟩)))
  · simp only [rspValid, Bool.and_eq_true] at hr
    obtain ⟨st, hst⟩ := Option.isSome_iff_exists.mp hr.1
    exact .inr (.inl ⟨st, hst, takeStatus_block { s with offered := offerOf p }⟩)
  · simp only [datValid, Bool.and_eq_true] at hr
    obtain ⟨⟨h1, h2⟩, -⟩ := hr
    exact .inr (.inr (.inl ⟨by simpa using h1, by simpa using h2,
      serveByte_block { s with offered := offerOf p }⟩))
  · rw [waitEdge_eq]; exact .inl rfl

/-- Everything a step can do to the block. -/
theorem step_cases {s t : State} (h : step s = .next t) : BlockMove s t := by
  unfold step at h
  split at h
  · exact blockStep_move h
  · rename_i ts _
    exact blockStep_move (s := { s with schedule := ts }) h
  · cases h; exact .inl rfl
  · cases h; exact .inr (.inr (.inr (.inr rfl)))
  · rename_i p ts _
    exact clockEdge_move (s := { s with schedule := ts }) h

/-- A command at its acceptance, field by field, in the terms of the tables (R66, R113). -/
theorem exec_block_fields {s u : State} {w : CmdWord}
    (h : exec (decode w) (accept w s.block) = .next u) :
    u.trace = s.trace ++ [.command w] ∧ u.phase = s.phase ∧ u.sample = s.sample ∧
    u.period = s.period ∧ u.config = s.config ∧ u.gate = gateTable (decode w) s.gate ∧
    u.rsp = some (statusTable (decode w) s.gate) ∧ u.cursor = cursorAfter (decode w) s ∧
    (s.owed = 0 → u.owed.toNat = bytesTable (decode w) s.gate) := by
  rcases exec_cases (decode w) (accept w s.block) with ⟨a, hi, hg, he⟩ | ⟨a, hi, hg, he⟩ |
    ⟨a, hi, hg, he⟩ | ⟨a, hi, hg, he⟩ | ⟨a, hi, he⟩ | ⟨a, hi, he⟩ <;>
    rw [he] at h <;> cases h <;> rw [hi] <;>
    simp_all [bytesTable, gateTable, statusTable, cursorAfter, State.block]

/-- The fields of the block the claims speak of, for a step in which it does nothing. -/
def SameBlock (s t : State) : Prop :=
  t.phase = s.phase ∧ t.period = s.period ∧ t.sample = s.sample ∧ t.cursor = s.cursor ∧
  t.gate = s.gate ∧ t.owed = s.owed ∧ t.rsp = s.rsp ∧ t.config = s.config ∧ t.trace = s.trace

theorem block_fields (s : State) : SameBlock s s.block := by
  unfold SameBlock; and_intros <;> rfl

/-- `step_cases` field by field: the five things a step can do to the block. -/
theorem blockMove_fields {s t : State} (h : BlockMove s t) :
    SameBlock s t ∨
    (∃ st, s.rsp = some st ∧ t.rsp = none ∧ t.trace = s.trace ++ [.status st] ∧
      t.phase = s.phase ∧ t.period = s.period ∧ t.sample = s.sample ∧ t.cursor = s.cursor ∧
      t.gate = s.gate ∧ t.owed = s.owed ∧ t.config = s.config) ∨
    (s.rsp = none ∧ s.owed ≠ 0 ∧ t.rsp = none ∧ t.owed = s.owed - 1 ∧
      t.trace = s.trace ++ [.byte (nextByte s)] ∧ t.cursor = s.cursor + 1 ∧
      t.phase = (if s.cursor = 0 then s.phase + 1 else s.phase) ∧
      t.sample = (if s.cursor = 0 then sampleAt s s.phase else s.sample) ∧
      t.period = s.period ∧ t.gate = s.gate ∧ t.config = s.config) ∨
    (s.rsp = none ∧ s.owed = 0 ∧ ∃ w, t.cursor = cursorAfter (decode w) s ∧
      t.gate = gateTable (decode w) s.gate ∧ t.owed.toNat = bytesTable (decode w) s.gate ∧
      t.phase = s.phase ∧ t.period = s.period ∧ t.sample = s.sample ∧ t.config = s.config ∧
      ((t.rsp = some (statusTable (decode w) s.gate) ∧ t.trace = s.trace ++ [.command w]) ∨
       (t.rsp = none ∧
        t.trace = s.trace ++ [.command w, .status (statusTable (decode w) s.gate)]))) ∨
    (t.phase = 0 ∧ t.sample = 0 ∧ t.cursor = 0 ∧ t.gate = .free ∧ t.owed = 0 ∧ t.rsp = none ∧
      t.trace = s.trace ++ [.reset] ∧ t.period = s.period ∧ t.config = s.config) := by
  have hs := block_fields s
  have ht := block_fields t
  unfold SameBlock at *
  rcases h with h | ⟨st, hst, h⟩ | ⟨h1, h2, h⟩ | ⟨h1, h2, w, u, hu, h⟩ | h
  · rw [h] at ht
    exact .inl (by simp_all)
  · rw [h] at ht
    simp [hs, hst] at ht
    exact .inr (.inl ⟨st, hst, by simp [← ht]⟩)
  · rw [h] at ht
    have hsa : ∀ p, sampleAt s.block p = sampleAt s p := fun _ => rfl
    simp [hs, h1, nextByte_block, hsa] at ht
    exact .inr (.inr (.inl ⟨h1, h2, by simp [← ht]⟩))
  · have e := exec_block_fields hu
    refine .inr (.inr (.inr (.inl ⟨h1, h2, w, ?_⟩)))
    rcases h with h | h <;> rw [h] at ht <;> simp [e] at ht <;> simp [← ht, e, h2]
  · rw [h] at ht
    simp [hs] at ht
    exact .inr (.inr (.inr (.inr (by simp [← ht]))))

/-- A watcher of `a ++ b` is a watcher of `a` who then watches `b`. -/
theorem Monitor.run_append (m : Monitor) (a b : List Event) :
    m.run (a ++ b) = (m.run a).bind fun m' => m'.run b := by
  induction a generalizing m with
  | nil => rfl
  | cons e es ih =>
    simp only [List.cons_append, Monitor.run]
    cases m.next e with
    | none => rfl
    | some m' => exact ih m'

end Sys2Proof.Machine
end

