-- ==== Sys2Proof/Laws/Sequences.lean ====
section
/-!
SUPPORT. Whole commands and sequences of them (43_commands.md R120 to R127): what one command run to
completion gives, said once, and that sequences always run through.
-/

namespace Sys2Proof.Machine

/-- `produce_bytes` neither reads nor writes anything outside the oscillator but the stream. -/
theorem produceBytes_outer (k : Nat) (s : State) (g : Gate) (o : Word) (r : Option Status)
    (off : Option CmdWord) (w d : Nat) (cs : List CmdWord) (ts : List Turn) (tr : List Event) :
    produceBytes k { s with
      gate := g, owed := o, rsp := r, offered := off, wait := w, draws := d, commands := cs
      schedule := ts, trace := tr } =
    { produceBytes k s with
      gate := g, owed := o, rsp := r, offered := off, wait := w, draws := d, commands := cs
      schedule := ts, trace := tr ++ (producedBytes k s).map Event.byte } := by
  induction k generalizing s tr with
  | zero => simp [produceBytes, producedBytes]
  | succ k ih =>
    have he : emitByte { s with
        gate := g, owed := o, rsp := r, offered := off, wait := w, draws := d, commands := cs
        schedule := ts, trace := tr } = { emitByte s with
        gate := g, owed := o, rsp := r, offered := off, wait := w, draws := d, commands := cs
        schedule := ts, trace := tr ++ [.byte (nextByte s)] } := by
      rw [emitByte_eq, emitByte_eq, nextByte_eq, nextByte_eq]; rfl
    simp only [produceBytes, producedBytes, he, ih, List.map_cons, List.append_assoc,
      List.singleton_append]

/-- The state after the command word `w` has run to completion. -/
def completed (w : CmdWord) (s : State) : State :=
  let n := bytesTable (decode w) s.gate
  let e := { s with cursor := cursorAfter (decode w) s }
  { produceBytes n e with
    gate := gateTable (decode w) s.gate, owed := 0, rsp := none, offered := none
    trace := s.trace ++ .command w :: .status (statusTable (decode w) s.gate) ::
      (producedBytes n e).map Event.byte }

/-- One command run to completion (R121 to R125), for a block with no command in progress. -/
theorem complete_eq {s : State} (w : CmdWord) (hi : idle s = true) :
    complete w s = .next (completed w s) := by
  obtain ⟨hr, ho⟩ := (idle_iff s).mp hi
  have key : ∀ (c : Cursor) (g : Gate) (st : Status) (n : Word),
      finish (takeStatus { s with
        cursor := c, gate := g, rsp := some st, owed := n, offered := none
        trace := s.trace ++ [.command w] }) =
      { produceBytes n.toNat { s with cursor := c } with
        gate := g, owed := 0, rsp := none, offered := none
        trace := s.trace ++ .command w :: .status st ::
          (producedBytes n.toNat { s with cursor := c }).map Event.byte } := by
    intro c g st n
    simp only [finish, takeStatus, List.append_assoc, List.cons_append,
      List.nil_append]
    have h := produceBytes_outer n.toNat { s with cursor := c } g n none none s.wait s.draws
      s.commands s.schedule (s.trace ++ [.command w, .status st])
    simp only [List.append_assoc, List.cons_append, List.nil_append] at h
    rw [h]
    have hf := produceBytes_fields n.toNat { s with cursor := c }
    simp_all
  unfold complete commandStep completed
  rcases exec_cases (decode w) (accept w s) with ⟨a, hd, hg, he⟩ | ⟨a, hd, hg, he⟩ |
    ⟨a, hd, hg, he⟩ | ⟨a, hd, hg, he⟩ | ⟨a, hd, he⟩ | ⟨a, hd, he⟩ <;> rw [he, hd] <;>
    simp only [accept_fields] at * <;>
    simp only [onNext, Host.Outcome.next.injEq]
  · simpa [hg, gateTable, statusTable, bytesTable, cursorAfter, accept, ho] using key 0 .held .ok 0
  · simpa [hg, gateTable, statusTable, bytesTable, cursorAfter, accept, ho] using
      key s.cursor .held .busy 0
  · simpa [hg, gateTable, statusTable, bytesTable, cursorAfter, accept, ho] using
      key s.cursor .held .ok a
  · simpa [hg, gateTable, statusTable, bytesTable, cursorAfter, accept, ho] using
      key s.cursor .free .notHeld 0
  · simpa [gateTable, statusTable, bytesTable, cursorAfter, accept, ho] using
      key s.cursor s.gate .unsupported 0
  · simpa [gateTable, statusTable, bytesTable, cursorAfter, accept, ho] using
      key s.cursor .free .ok 0

@[simp] theorem completed_idle (w : CmdWord) (s : State) : idle (completed w s) = true := by
  simp [idle, completed]

@[simp] theorem completed_gate (w : CmdWord) (s : State) :
    (completed w s).gate = gateTable (decode w) s.gate := rfl

/-- A READ of the holder, run to completion (R122). -/
theorem completed_read {w : CmdWord} {n : Word} {s : State} (hd : decode w = .readCmd n)
    (hg : s.gate = .held) :
    completed w s = { produceBytes n.toNat s with
      owed := 0, rsp := none, offered := none
      trace := s.trace ++ .command w :: .status .ok ::
        (producedBytes n.toNat s).map Event.byte } := by
  have hb : bytesTable (.readCmd n) s.gate = n.toNat := by rw [hg]; rfl
  have hst : statusTable (.readCmd n) s.gate = .ok := by rw [hg]; rfl
  unfold completed
  rw [hd, hb, hst]
  have he : ({ s with cursor := cursorAfter (.readCmd n) s } : State) = s := rfl
  simp only [he, gateTable]
  rw [← (produceBytes_fields n.toNat s).2.2.2.1]

/-- The state after a sequence of commands. -/
def completedAll : List CmdWord → State → State
  | [], s => s
  | w :: ws, s => completedAll ws (completed w s)

/-- A sequence of commands always runs through. -/
theorem completeAll_eq {s : State} (ws : List CmdWord) (hi : idle s = true) :
    completeAll ws s = .next (completedAll ws s) := by
  induction ws generalizing s with
  | nil => rfl
  | cons w ws ih => simp [completeAll, completedAll, complete_eq w hi, ih (completed_idle w s)]

theorem completedAll_append (a b : List CmdWord) (s : State) :
    completedAll (a ++ b) s = completedAll b (completedAll a s) := by
  induction a generalizing s with
  | nil => rfl
  | cons w ws ih => simp [completedAll, ih]

/-- A command that sends no byte, run to completion. -/
theorem completed_noBytes {w : CmdWord} {s : State} (h : bytesTable (decode w) s.gate = 0) :
    completed w s = { s with
      gate := gateTable (decode w) s.gate, cursor := cursorAfter (decode w) s
      owed := 0, rsp := none, offered := none
      trace := s.trace ++ [.command w, .status (statusTable (decode w) s.gate)] } := by
  unfold completed
  rw [h]
  simp [produceBytes, producedBytes]

/-! The laws of R127 for single commands and pairs, over any state. -/

/-- R127(e), R66: the status sent is the one the table gives for the command and the gate. -/
theorem completed_status (w : CmdWord) (s : State) :
    statusesIn (completed w s).trace =
      statusesIn s.trace ++ [statusTable (decode w) s.gate] := by
  simp [completed, statusesIn]

/-- R127(b), R141: an error-answered command leaves its two transfers and nothing else. -/
theorem completed_error {w : CmdWord} {s : State} (hi : idle s = true)
    (he : answersError (decode w) s.gate = true) :
    completed w s = { s with
      offered := none
      trace := s.trace ++ [.command w, .status (statusTable (decode w) s.gate)] } := by
  obtain ⟨hr, ho⟩ := (idle_iff s).mp hi
  have hb : bytesTable (decode w) s.gate = 0 ∧ gateTable (decode w) s.gate = s.gate ∧
      cursorAfter (decode w) s = s.cursor := by
    revert he
    cases decode w <;> cases hg : s.gate <;>
      simp [answersError, statusTable, bytesTable, gateTable, cursorAfter, hg]
  rw [completed_noBytes hb.1, hb.2.1, hb.2.2, ← hr, ← ho]

/-- R127(a): two READs of the holder leave the oscillator where one `produce_bytes` of the sum does, and
send its bytes. -/
theorem completed_read_read {v w : CmdWord} {m n : Word} {s : State} (hv : decode v = .readCmd m)
    (hw : decode w = .readCmd n) (hg : s.gate = .held) :
    let t := completed w (completed v s)
    let u := produceBytes (m.toNat + n.toNat) s
    bytesIn t.trace = bytesIn u.trace ∧ t.phase = u.phase ∧ t.sample = u.sample ∧
      t.cursor = u.cursor ∧ t.gate = .held := by
  have h2 := completed_read hw (s := completed v s) (by rw [completed_gate, hv, hg]; rfl)
  have ho := produceBytes_outer n.toNat (produceBytes m.toNat s) s.gate 0 none none s.wait s.draws
    s.commands s.schedule
    (s.trace ++ .command v :: .status .ok :: (producedBytes m.toNat s).map Event.byte)
  have hf := produceBytes_fields m.toNat s
  rw [completed_read hv hg] at h2
  dsimp only
  rw [completed_read hv hg, h2, produceBytes_add]
  simp_all [bytesIn]
  exact producedBytes_congr _ _ _ rfl (by simp) (by simp) (.inr rfl) (by simp)

/-- R127(c): `CLOSE; OPEN` is `reset_on_open` and its four transfers. -/
theorem completed_close_open {v w : CmdWord} {a b : Word} {s : State} (hv : decode v = .closeCmd a)
    (hw : decode w = .openCmd b) (hi : idle s = true) (hg : s.gate = .held) :
    completed w (completed v s) = { resetOnOpen s with
      offered := none
      trace := s.trace ++ [.command v, .status .ok, .command w, .status .ok] } := by
  obtain ⟨hr, ho⟩ := (idle_iff s).mp hi
  rw [completed_noBytes (w := w) (by rw [hw]; rfl), completed_noBytes (w := v) (by rw [hv]; rfl), hv, hw]
  simp [gateTable, cursorAfter, statusTable, resetOnOpen, hr, ho, hg]

end Sys2Proof.Machine
end

