-- ==== Sys2Proof/Laws/Run.lean ====
section
/-!
SUPPORT. Runs of several steps through the host's interface, in terms of `step`: later proofs rewrite with
these and do not unfold `Host.Core.run`. And the EMIT steps of a READ in progress, one after another.
-/

namespace Sys2Proof.Machine

theorem run_zero (s : State) : Host.Core.run Sys2Proof.core 0 s = .next s := rfl

theorem run_next {s t : State} (k : Nat) (h : step s = .next t) :
    Host.Core.run Sys2Proof.core (k + 1) s = Host.Core.run Sys2Proof.core k t := by
  have hc : Sys2Proof.core.step s = .next t := h
  simp only [Host.Core.run, hc]

theorem run_refused {s : State} {r : Refusal} (k : Nat) (h : step s = .refused r) :
    Host.Core.run Sys2Proof.core (k + 1) s = .refused r := by
  have hc : Sys2Proof.core.step s = .refused r := h
  simp only [Host.Core.run, hc]

/-- Every step answers a next state or a refusal: the block has no fault. -/
theorem step_answers (s : State) : (∃ t, step s = .next t) ∨ ∃ r, step s = .refused r := by
  cases h : step s with
  | next t => exact .inl ⟨t, rfl⟩
  | fault r => nomatch r
  | refused r => exact .inr ⟨r, rfl⟩

theorem emitByte_outer (s : State) :
    serveByte s = { emitByte s with
      gate := s.gate, owed := s.owed - 1, rsp := s.rsp, offered := s.offered, wait := s.wait
      draws := s.draws, commands := s.commands, schedule := s.schedule
      trace := (emitByte s).trace } := by
  apply State.ext <;> simp

/-- As many steps as bytes are owed are `produce_bytes` of that many (decision D20, R96). -/
theorem run_owed (k : Nat) (s : State) (hr : s.rsp = none) (hs : s.schedule = [])
    (hk : s.owed.toNat = k) :
    Host.Core.run Sys2Proof.core k s = .next { produceBytes k s with owed := 0 } := by
  induction k generalizing s with
  | zero =>
    have ho : s.owed = 0 := by apply BitVec.eq_of_toNat_eq; simpa using hk
    rw [run_zero]; simp only [produceBytes]; rw [← ho]
  | succ k ih =>
    have hne : s.owed ≠ 0 := by intro h; rw [h] at hk; simp at hk
    have hlt := s.owed.isLt
    have h1 : step s = .next (serveByte s) := by
      unfold step blockStep
      rw [hs]
      simp only [hr, Option.isSome_none, Bool.false_eq_true, if_false, if_pos hne]
    rw [run_next k h1, ih (serveByte s) (by simp [hr]) (by simp [hs])
      (by simp [BitVec.toNat_sub]; omega), emitByte_outer,
      produceBytes_outer k (emitByte s) s.gate]
    simp only [produceBytes]
    congr 1
    apply State.ext <;> simp

end Sys2Proof.Machine
end

