-- ==== Sys2Proof/Laws/Sine.lean ====
section
/-!
SUPPORT. SINE depends on the phase through its index in the period only (40_sine_function.md R82), and the
denominator of `SINE_REF` never vanishes (R85).
-/

namespace Sys2Proof.Machine

theorem sineRef_mod (p n : Nat) : sineRef (p % n) n = sineRef p n := by simp [sineRef]

/-- Phases with the same index have the same sample, in every build. -/
theorem sine_congr (f : SineFn) {p q n : Word} (h : sineIndex p n = sineIndex q n) :
    sine f p n = sine f q n := by
  unfold sineIndex at h
  cases f with
  | reference => simp only [sine]; rw [← sineRef_mod, h, sineRef_mod]
  | table entries => simp only [sine, sineIndex, h]

/-- `0 <= q <= n*n/4` (R85). -/
theorem four_mul_q_le {u n : Nat} (h : u ≤ n) : 4 * (u * (n - u)) ≤ n * n := by
  obtain ⟨v, rfl⟩ := Nat.exists_eq_add_of_le h
  have hsq : (0 : Int) ≤ ((u : Int) - v) ^ 2 := sq_nonneg _
  simp only [Nat.add_sub_cancel_left]
  zify
  nlinarith

/-- `4*n*n <= den`, so for `n >= 1` the division of R85 is never by 0. -/
theorem sineRef_den_ge {u n : Nat} (h : u ≤ n) : 4 * (n * n) ≤ 5 * n * n - 4 * (u * (n - u)) := by
  have hq := four_mul_q_le h
  have h5 : 5 * n * n = 5 * (n * n) := by ring
  omega

end Sys2Proof.Machine
end

