-- ==== Sys2Proof/Tests/Slice0.lean ====
section
/-!
SUPPORT. Tests with expected results from 95_test_vectors.md and the worked examples of the rules, the
smoke tests of the well-formedness checks, and for every statement of Obligations.lean that has
hypotheses a witness that meets them, at the boundaries of its clauses.
-/

namespace Sys2Proof.Tests

open Sys2Proof Sys2Proof.Machine

/-- The answer is a next state that passes the check. -/
def nextIs (o : Answer) (f : State → Bool) : Bool :=
  match o with
  | .next s => f s
  | .fault _ | .refused _ => false

/-- `SINE_TST` of 95_test_vectors.md, as a table build at period 436. -/
def tst : Config where
  sampleRate := 96000
  toneHz     := 220
  sine       := .table ((List.range 436).map fun p =>
    BitVec.ofNat 32 (0x10203040 + 0x04040404 * (p % 48)))

/-- A state with the four changing registers given, the rest as after reset. -/
def at' (c : Config) (phase sample : Word) (cursor : Cursor) (gate : Gate) : State :=
  { State.resetWith c with phase := phase, sample := sample, cursor := cursor, gate := gate }

/-- The four registers of 95_test_vectors.md's state tuples. -/
def regs (s : State) : Word × Word × Cursor × Gate := (s.phase, s.sample, s.cursor, s.gate)

/-- A held block with a READ in progress that owes `n` bytes. -/
def reading (n : Word) (cursor : Cursor) : State :=
  { State.reset with gate := .held, cursor := cursor, owed := n }

/-- A block as after reset with these command words lined up. -/
def lined (g : Gate) (ws : List CmdWord) : State :=
  { State.reset with gate := g, commands := ws }

/-! The checks of WellFormed.lean refuse an ill-formed term each. -/

theorem test_config_standard_wf : Config.standard.wf = true := by decide
theorem test_config_table_wf : tst.wf = true := by decide +kernel
theorem test_config_refuses_tone_zero :
    ({ Config.standard with toneHz := 0 } : Config).wf = false := by decide
theorem test_config_refuses_period_zero :
    ({ Config.standard with sampleRate := 219 } : Config).wf = false := by decide
theorem test_config_refuses_wide_period :
    ({ sampleRate := 2 ^ 32, toneHz := 1, sine := .reference } : Config).wf = false := by decide
theorem test_config_refuses_short_table :
    ({ Config.standard with sine := .table [0, 0] } : Config).wf = false := by decide
theorem test_line_refuses_wide_count : (Line.readLine (2 ^ 32)).wf = false := by decide
theorem test_line_refuses_wide_arg : (Line.writeLine (2 ^ 32)).wf = false := by decide
theorem test_line_accepts_widest : (Line.readLine (2 ^ 32 - 1)).wf = true := by decide

/-! Decoding: words written out from the encodings of 30_encoding.md R60, R61; V1 to V9. -/

theorem test_decode_open : decode 0b00_00000000000000000000000000000000#34 = .openCmd 0 := by decide
theorem test_decode_read : decode 0b01_00000000000000000000000000000100#34 = .readCmd 4 := by decide
theorem test_decode_write :
    decode 0b10_11011110101011011011111011101111#34 = .writeCmd 0xDEADBEEF := by decide
theorem test_decode_close :
    decode 0b11_00010010001101000101011001111000#34 = .closeCmd 0x12345678 := by decide
theorem test_encode_read : encode (.readCmd 0x6D0) = 0x1000006D0#34 := by decide
theorem test_decode_refuses_wide : decodeTableWord 40 (2 ^ 34) = none := by decide
theorem test_decode_table_word : decodeTableWord 40 0x1FFFFFFFF = some (.readCmd 0xFFFFFFFF) := by
  decide
theorem test_status_codes :
    [Status.ok, .busy, .unsupported, .notHeld].map Status.code = [0, 1, 2, 3] := by decide
theorem test_gate_codes : [Gate.free, .held].map Gate.code = [0, 1] := by decide
theorem test_spelling : spelling 0x2DEADBEEF#34 = "0x2_DEADBEEF" := by decide

/-! One step of each command on a small state: the worked examples of 43_commands.md R121 to R125. -/

theorem test_open_free :
    nextIs (exec (.openCmd 0xFFFFFFFF) (at' tst 9 5 1 .free)) (fun t =>
      regs t == (9, 5, 0, .held) && t.rsp == some .ok && t.owed == 0) = true := by rfl
theorem test_open_busy_keeps_cursor :
    nextIs (exec (.openCmd 0) (at' tst 1 5 3 .held)) (fun t =>
      regs t == (1, 5, 3, .held) && t.rsp == some .busy) = true := by rfl
theorem test_read_held :
    nextIs (exec (.readCmd 0xFFFFFFFF) (at' tst 1 5 3 .held)) (fun t =>
      regs t == (1, 5, 3, .held) && t.rsp == some .ok && t.owed == 0xFFFFFFFF) = true := by rfl
theorem test_read_zero_free :
    nextIs (exec (.readCmd 0) (at' tst 1 5 3 .free)) (fun t =>
      regs t == (1, 5, 3, .free) && t.rsp == some .notHeld && t.owed == 0) = true := by rfl
theorem test_write_free :
    nextIs (exec (.writeCmd 0xDEADBEEF) (at' tst 1 5 3 .free)) (fun t =>
      regs t == (1, 5, 3, .free) && t.rsp == some .unsupported) = true := by rfl
theorem test_close_held :
    nextIs (exec (.closeCmd 0x12345678) (at' tst 3 5 2 .held)) (fun t =>
      regs t == (3, 5, 2, .free) && t.rsp == some .ok) = true := by rfl
theorem test_close_free :
    nextIs (exec (.closeCmd 0) (at' tst 3 5 2 .free)) (fun t =>
      regs t == (3, 5, 2, .free) && t.rsp == some .ok) = true := by rfl

/-- The first step after reset runs the word the host offers (OPEN). -/
theorem test_first_step_after_reset :
    nextIs (step (State.reset.withFetchWord 40 0)) (fun t =>
      regs t == (0, 0, 0, .held) && t.trace == [.command 0, .status .ok]) = true := by rfl

/-! EMIT: V23, V28, V29 of 95_test_vectors.md; the multiplexer: V13, V14; `SINE_REF`: V40. -/

theorem test_emit_tick :
    regs (emitByte (at' tst 0 0 0 .held)) = (1, 0x10203040, 1, .held) ∧
    nextByte (at' tst 0 0 0 .held) = 0x40 := by decide +kernel
theorem test_emit_phase_wraps :
    regs (emitByte (at' tst 0xFFFFFFFF 0xA8B8C8D8 0 .held)) = (0, 0xACBCCCDC, 1, .held) ∧
    nextByte (at' tst 0xFFFFFFFF 0xA8B8C8D8 0 .held) = 0xDC := by decide +kernel
theorem test_emit_from_stored_sample :
    regs (emitByte (at' tst 5 0x12345678 2 .held)) = (5, 0x12345678, 3, .held) ∧
    nextByte (at' tst 5 0x12345678 2 .held) = 0x34 := by decide +kernel
theorem test_mux :
    [0, 1, 2, 3].map (byteSelect 0x12345678) = [0x78, 0x56, 0x34, 0x12] ∧
    [0, 1, 2, 3].map (byteSelect (bits32 (-127))) = [0x81, 0xFF, 0xFF, 0xFF] := by decide
theorem test_join : signed32 (joinBytes 0x81 0xFF 0xFF 0xFF) = -127 := by decide
theorem test_sine_ref :
    [0, 1, 2, 109, 110, 218, 219, 327, 435, 436, 4294967295, 184].map (sineRef · 436) =
      [0, 1, 3, 127, 126, 0, -1, -127, -1, 0, 61, 59] := by decide +kernel
theorem test_sine_ref_period_5 :
    [0, 1, 2, 3, 4].map (sineRef · 5) = [0, 120, 74, -74, -120] := by decide

/-! Witnesses, one for each clause of each statement with hypotheses. -/

theorem witness_free : State.reset.gate = .free := rfl
theorem witness_held : (reading 0 3).gate = .held := rfl
theorem witness_OpenTakesTheGateOrAnswersBusy :
    (at' tst 9 5 3 .free).gate = .free ∧ (at' tst 9 5 3 .held).gate = .held := ⟨rfl, rfl⟩
theorem witness_ErrorsOnlyAnswer :
    answersError (.openCmd 0) (at' tst 9 5 3 .held).gate = true ∧
    answersError (.readCmd 0) (at' tst 9 5 3 .free).gate = true ∧
    answersError (.writeCmd 0) (at' tst 9 5 3 .free).gate = true := ⟨rfl, rfl, rfl⟩
theorem witness_ReadWhileHeldIsServed : (at' tst 9 5 3 .held).gate = .held := rfl
theorem witness_StatusAndBytesAreTheTable : (at' tst 9 5 3 .held).owed = 0 := rfl
theorem witness_GateStateMachine :
    State.reset.gate = .free ∧ (reading 0 3).gate = .held ∧
    nextIs (exec (.readCmd 1) (reading 0 3)) (fun t => t.gate == .held) = true ∧
    nextIs (exec (.writeCmd 1) (reading 0 3)) (fun t => t.gate == .held) = true := ⟨rfl, rfl, rfl, rfl⟩

/-- OPEN from `Free` at cursor 3 writes `cursor` and `gate`; CLOSE writes `gate`; READ writes `owed`. -/
theorem witness_CommandsWriteOnlyTheirRow :
    nextIs (exec (.openCmd 0) (at' tst 0 0 3 .free)) (fun t => t.cursor != 3 && t.gate != .free) = true ∧
    nextIs (exec (.closeCmd 0) (at' tst 0 0 3 .held)) (fun t => t.gate != .held) = true ∧
    nextIs (exec (.readCmd 1) (at' tst 0 0 3 .held)) (fun t => t.owed != 0) = true := ⟨rfl, rfl, rfl⟩

theorem witness_EmitIsOneByteStep :
    State.reset.cursor = 0 ∧ (reading 0 1).cursor ≠ 0 ∧ (reading 0 3).cursor ≠ 0 := by decide
theorem witness_SampleBytesAndTheirInverse :
    (-2 ^ 31 : Int) ≤ -2 ^ 31 ∧ (2 ^ 31 - 1 : Int) < 2 ^ 31 ∧
    (0 : Int) ≤ 0 ∧ (255 : Int) < 256 ∧ (-256 : Int) ≤ -256 ∧ (-1 : Int) < 0 ∧ (3 : Cursor) ≠ 0 := by
  decide
theorem witness_PhaseWrapsSilently :
    (at' tst 0xFFFFFFFF 0 0 .held).cursor = 0 ∧ (at' tst 0xFFFFFFFF 0 0 .held).phase = 0xFFFFFFFF := by
  decide
theorem witness_CursorLaw :
    ((reading 0 3).cursor.toNat + 1) % 4 = 0 ∧ ((reading 0 3).cursor.toNat + 0) % 4 ≠ 0 := by decide
theorem witness_PhaseAdvanceLaw : (3 : Nat) < 4 ∧ (3 : Nat) ≠ 0 ∧ (1 : Nat) ≤ 4 - 3 := by decide
theorem witness_ClosedFormFromSampleBoundary : (reading 0 0).cursor = 0 := rfl
theorem witness_ClosedFormInsideSample :
    (reading 0 3).cursor ≠ 0 ∧ 1 ≤ 4 - (reading 0 3).cursor.toNat ∧
    4 - (reading 0 3).cursor.toNat < 2 := by decide
theorem witness_SplitReadsEqualOneRead :
    idle (reading 0 3) = true ∧ (reading 0 3).gate = .held ∧
    [2 ^ 32 - 1, 0].sum < 2 ^ 32 ∧ ([] : List Nat).sum < 2 ^ 32 := by decide
theorem witness_StreamIsPeriodicBelowTheWrap :
    State.reset.period ≠ 0 ∧
    (at' Config.standard 4294966856 0 0 .held).phase.toNat + 3 / 4 +
      (at' Config.standard 4294966856 0 0 .held).period.toNat < 2 ^ 32 := by decide
theorem witness_WrapJumpsUnlessPeriodIsPowerOfTwo :
    (1 : Word) ≠ 0 ∧ (436 : Word) ≠ 0 ∧ (0x80000000 : Word) ≠ 0 := by decide
theorem witness_ReopeningDropsTheOwedBytes : idle (reading 0 2) = true ∧ (reading 0 2).gate = .held := by
  decide
theorem witness_SineIsPeriodic : (1 : Word) ≠ 0 ∧ (436 : Word) ≠ 0 := by decide

/-- A SINE that is no constant: the phase index itself. -/
theorem witness_EveryAdmittedSineIsSomeBuild :
    (436 : Word) ≠ 0 ∧
    (∀ p : Word, -2 ^ 31 ≤ ((p % 436).toNat : Int) ∧ ((p % 436).toNat : Int) < 2 ^ 31) ∧
    (∀ p : Word, ((p % 436).toNat : Int) = ((p % 436 % 436).toNat : Int)) := by
  have h : ∀ p : Word, (p % 436).toNat = p.toNat % 436 := fun p => by simp [BitVec.toNat_umod]
  refine ⟨by decide, fun p => ?_, fun p => ?_⟩
  · have := h p; omega
  · have := h p; have := h (p % 436); omega

theorem witness_SineRefBoundAndSign :
    (1 : Nat) ≤ 436 ∧ 2 * (217 % 436) < 436 ∧ 436 ≤ 2 * (218 % 436) := by decide
theorem witness_SineRefZerosAndPeaks :
    436 % 436 = 0 ∧ 436 % 2 = 0 ∧ 218 % 436 = 436 / 2 ∧ 436 % 4 = 0 ∧ 109 % 436 = 436 / 4 ∧
    327 % 436 = 3 * (436 / 4) := by decide
theorem witness_SineRefSymmetries : (1 : Nat) ≤ 2 ∧ 2 % 2 = 0 ∧ (0 : Nat) ≤ 2 ∧ (2 : Nat) ≤ 2 := by decide
theorem witness_DescribedBuildsAreRight : (1 : Word) ≠ 0 ∧ (436 : Word) ≠ 0 := by decide
theorem witness_CloseThenOpenIsResetOnOpen : idle (reading 0 2) = true ∧ (reading 0 2).gate = .held := by
  decide
theorem witness_ErrorAnsweredCommandsCanBeDeleted :
    idle (reading 0 2) = true ∧ (reading 0 2).offered = none ∧
    answersError (decode 0x000000000) .held = true ∧ answersError (decode 0x100000000) .free = true ∧
    answersError (decode 0x200000000) .held = true := by decide
theorem witness_FirstOfRacingOpensWins : idle State.reset = true ∧ State.reset.gate = .free := by decide

/-- `OPEN; READ 4; CLOSE` closes at a sample boundary. -/
theorem witness_PhaseCountsSamplesFromReset :
    (∀ (done rest : List CmdWord) (w : CmdWord) (a : Word) (u : State),
      ([0x000000000, 0x100000004, 0x300000000] : List CmdWord) = done ++ w :: rest →
      decode w = .closeCmd a →
      completeAll done (State.resetWith Config.standard) = .next u → u.cursor = 0) ∧
    nextIs (completeAll [0x000000000, 0x100000004, 0x300000000] (State.resetWith Config.standard))
      (fun t => t.phase == 1) = true := by
  refine ⟨?_, by rfl⟩
  intro done rest w a u hd hw hu
  rcases done with _ | ⟨x, _ | ⟨y, _ | ⟨z, _ | _⟩⟩⟩ <;>
    simp only [List.nil_append, List.cons_append, List.cons.injEq] at hd
  · have h0 : decode 0x000000000 = .openCmd 0 := by decide
    rw [← hd.1, h0] at hw; cases hw
  · have h4 : decode 0x100000004 = .readCmd 4 := by decide
    rw [← hd.2.1, h4] at hw; cases hw
  · obtain ⟨rfl, rfl, -, -⟩ := hd
    cases hu; rfl
  · exact absurd hd.2.2.2 (by simp)
  · exact absurd hd.2.2.2 (by simp)

theorem witness_OffsetCounterCountsTheBytes :
    idle State.reset = true ∧
    nextIs (completeAll [0x000000000, 0x100000003] State.reset) (fun t => bytesIn t.trace == [0, 0, 0]) =
      true := ⟨rfl, by rfl⟩
theorem witness_DutifulHostNeverSeesNotHeld :
    idle State.reset = true ∧ State.reset.gate = .free ∧
    disciplined none .free [⟨1, .openCmd 0⟩, ⟨2, .openCmd 0⟩, ⟨1, .readCmd 3⟩, ⟨1, .closeCmd 0⟩] = true ∧
    nextIs (completeAll ([⟨1, .openCmd 0⟩, ⟨2, .openCmd 0⟩, ⟨1, .readCmd 3⟩, ⟨1, .closeCmd 0⟩].map
      fun c : Call => encode c.cmd) State.reset) (fun _ => true) = true := ⟨rfl, rfl, rfl, by rfl⟩
theorem witness_StepRunsTheDecodedCommand :
    (lined .free [0]).rsp = none ∧ (lined .free [0]).owed = 0 ∧ (lined .free [0]).commands = [0] ∧
    (lined .free [0]).schedule = [] ∧
    ({ lined .free [0] with schedule := [.proceed, .stall] } : State).schedule = .proceed :: [.stall] :=
  ⟨rfl, rfl, rfl, rfl, rfl⟩
theorem witness_ReadRunsToCompletion :
    (lined .held [encode (.readCmd 0xFFFFFFFF)]).rsp = none ∧
    (lined .held [encode (.readCmd 0xFFFFFFFF)]).owed = 0 ∧
    (lined .held [encode (.readCmd 0xFFFFFFFF)]).gate = .held ∧
    (lined .held [encode (.readCmd 0xFFFFFFFF)]).commands = [encode (.readCmd 0xFFFFFFFF)] ∧
    (lined .held [encode (.readCmd 0xFFFFFFFF)]).schedule = [] := ⟨rfl, rfl, rfl, rfl, rfl⟩
theorem witness_StepsOfACommandAreTheCommand :
    (lined .held [0x100000002]).rsp = none ∧ (lined .held [0x100000002]).owed = 0 ∧
    (lined .held [0x100000002]).commands = [0x100000002] ∧ (lined .held [0x100000002]).schedule = [] :=
  ⟨rfl, rfl, rfl, rfl⟩

/-- A READ in progress, owing 3 bytes at cursor 2, when `rst` is pulsed. -/
theorem witness_ResetAbortsWhateverRuns :
    ({ reading 3 2 with schedule := [.reset] } : State).schedule = .reset :: [] := rfl

theorem witness_IllegalConfigurationsAreRefused :
    (⟨96000, 0, .reference⟩ : Config).toneHz = 0 ∧ (219 : Nat) < 220 ∧ 2 ^ 32 ≤ 2 ^ 32 / 1 ∧
    (1 : Nat) ≠ 0 ∧ (1 : Nat) ≤ 1 ∧ (2 ^ 32 - 1) / 1 < 2 ^ 32 ∧
    SineFn.fits (1 / 1) (.table [7]) = true ∧ SineFn.fits (96000 / 220) (.table [0, 0]) = false := by decide

/-- One configuration that meets the premises of the built clause together: period 1, a table of one entry. -/
theorem witness_LegalConfigurationIsBuilt :
    let c : Config := ⟨1, 1, .table [7]⟩
    c.toneHz ≠ 0 ∧ c.toneHz ≤ c.sampleRate ∧ c.sampleRate / c.toneHz < 2 ^ 32 ∧
    c.sine.fits (c.sampleRate / c.toneHz) = true := by decide
theorem witness_PeriodAndParametersAreConstant :
    nextIs (step (lined .free [0])) (fun t => t.gate == .held) = true := rfl

/-- The phase moves in a tick, and in a reset from a phase other than 0. -/
theorem witness_OnlyTicksMoveThePhase :
    nextIs (step (reading 1 0)) (fun t => t.phase != 0) = true ∧
    nextIs (step { reading 1 0 with phase := 5, schedule := [.reset] }) (fun t => t.phase != 5) = true :=
  ⟨rfl, rfl⟩
theorem witness_GateMovesOnlyByOpenCloseReset :
    nextIs (step (lined .free [0x000000000])) (fun t => t.gate == .held) = true ∧
    nextIs (step (lined .held [0x300000000])) (fun t => t.gate == .free) = true ∧
    nextIs (step { reading 3 2 with schedule := [.reset] }) (fun t => t.gate == .free) = true :=
  ⟨rfl, rfl, rfl⟩
theorem witness_InvariantHoldsAtReset : Config.standard.wf = true := by decide

/-- A READ in progress meets the invariant and steps. -/
theorem witness_EveryStepKeepsTheInvariant :
    (reading 3 2).Inv ∧ nextIs (step (reading 3 2)) (fun t => t.owed == 2) = true :=
  ⟨⟨by decide, rfl, fun _ => rfl, fun _ h => by cases h⟩, rfl⟩
theorem witness_EveryStepObeysTheProtocol :
    State.reset.Monitored ∧ nextIs (step State.reset) (fun _ => true) = true := ⟨rfl, rfl⟩

/-- A word on offer that the host withdraws at the next edge. -/
def withdrawn : State := { State.reset with offered := some 0, schedule := [.edge drainPins] }

theorem witness_OldSampleIsUnobservable :
    withdrawn.cursor = 0 ∧ (reading 1 0).cursor = 0 ∧
    nextIs (Host.Core.run Sys2Proof.core 1 (reading 1 0)) (fun t => t.cursor == 1) = true ∧
    Host.Core.run Sys2Proof.core 1 withdrawn = .refused .brokenHandshake := ⟨rfl, rfl, rfl, rfl⟩
theorem witness_StepsThatRunNoCommand :
    (reading 1 0).rsp = none ∧ (reading 1 0).owed ≠ 0 ∧ (reading 1 0).schedule = [] ∧
    ({ reading 1 0 with schedule := [.stall] } : State).schedule = .stall :: [] ∧
    State.reset.rsp = none ∧ State.reset.owed = 0 ∧ State.reset.commands = [] ∧
    State.reset.schedule = [] := by decide

/-- A command on offer is withdrawn, or changed, at an edge without `rst`. -/
theorem witness_OnlyABrokenHandshakeStops :
    let s : State := { State.reset with offered := some 5, schedule := [.edge drainPins] }
    let p : Pins := { drainPins with cmdValid := true, cmd := 6 }
    s.schedule = .edge drainPins :: [] ∧ drainPins.rst = false ∧ s.offered = some 5 ∧
    drainPins.cmdValid = false ∧ p.rst = false ∧ p.cmdValid = true ∧ p.cmd ≠ 5 := by decide
theorem witness_ResetEdgeOverrides : ({ drainPins with rst := true } : Pins).rst = true := rfl
theorem witness_AcceptanceRunsTheCommand :
    ({ drainPins with cmdValid := true } : Pins).rst = false ∧ cmdReady State.reset = true ∧
    ({ drainPins with cmdValid := true } : Pins).cmdValid = true ∧
    handshakeKept { drainPins with cmdValid := true } State.reset = true := by decide
theorem witness_DataTransferIsOneEmit :
    drainPins.rst = false ∧ handshakeKept drainPins (reading 1 3) = true ∧
    (outputs (reading 1 3)).dat = some 0 ∧ drainPins.datReady = true := by decide

/-- A status on offer that the host does not take, and a byte that it does not take. -/
theorem witness_ValidOutputsStayUntilTaken :
    ({ drainPins with rspReady := false, datReady := false } : Pins).rst = false ∧
    (outputs { State.reset with rsp := some .busy }).rspStatus = some 1 ∧
    (outputs (reading 1 3)).dat = some 0 ∧
    nextIs (clockEdge { drainPins with rspReady := false, datReady := false }
      { State.reset with rsp := some .busy }) (fun t => t.rsp == some .busy) = true ∧
    nextIs (clockEdge { drainPins with rspReady := false, datReady := false } (reading 1 3))
      (fun t => t.owed == 1) = true := ⟨rfl, rfl, rfl, rfl, rfl⟩
theorem witness_UntakenByteStallsTheBlock :
    (reading 1 3).rsp = none ∧ (reading 1 3).owed ≠ 0 ∧
    (∀ p ∈ [{ drainPins with datReady := false }, { drainPins with datReady := false }],
      p.rst = false ∧ p.datReady = false) ∧
    nextIs (clockEdges [{ drainPins with datReady := false }, { drainPins with datReady := false }]
      (reading 1 3)) (fun t => t.owed == 1) = true := by
  refine ⟨rfl, by decide, by decide, rfl⟩
theorem witness_WillingHostSeesReadyAgain : (reading 0xFFFFFFFF 3).offered = none := rfl

/-- The three kinds of edge: a `cmd` transfer, a `dat` transfer, and one with neither. -/
theorem witness_SignalLevelRefinesCommandLevel :
    drainPins.rst = false ∧
    nextIs (clockEdge { drainPins with cmdValid := true } State.reset) (fun t => t.gate == .held) = true ∧
    cmdReady State.reset = true ∧
    nextIs (clockEdge drainPins (reading 1 3)) (fun t => t.owed == 0) = true ∧
    datValid (reading 1 3) = true ∧ drainPins.datReady = true ∧
    nextIs (clockEdge drainPins { State.reset with wait := 2 }) (fun t => t.wait == 1) = true :=
  ⟨rfl, rfl, rfl, rfl, rfl, rfl, rfl⟩

end Sys2Proof.Tests
end

section
/-!
PROOFS of the family 00_scope.md: which configurations are built and which are refused (R9).
-/

namespace Sys2Proof

/-- R9 in terms of the parameters: `PERIOD` is 0 exactly when `TONE_HZ` is 0 or above
`SAMPLE_RATE` (`Nat.div_ne_zero_iff`). -/
theorem Config.wf_iff (c : Config) :
    c.wf = true ↔ c.toneHz ≠ 0 ∧ c.toneHz ≤ c.sampleRate ∧ c.sampleRate / c.toneHz < 2 ^ 32 ∧
      c.sine.fits (c.sampleRate / c.toneHz) = true := by
  simp only [Config.wf, Bool.and_eq_true, bne_iff_ne, decide_eq_true_iff]
  simp only [Config.period, Nat.div_ne_zero_iff, and_assoc, and_self_left]

namespace Machine

theorem powerOn_of_wf {c : Config} (h : c.wf = true) : powerOn c = .next (State.resetWith c) :=
  if_pos h

theorem powerOn_of_not_wf {c : Config} (h : ¬ c.wf = true) : powerOn c = .refused .illegalConfig :=
  if_neg h

/-- Settles O44: each fault of a configuration contradicts one conjunct of `Config.wf_iff`. -/
theorem illegalConfigurationsAreRefused : Obligations.IllegalConfigurationsAreRefused := by
  intro c
  refine ⟨fun hfault => powerOn_of_not_wf fun hwf => ?_,
    fun htone hrate hperiod hfits => powerOn_of_wf (c.wf_iff.2 ⟨htone, hrate, hperiod, hfits⟩),
    fun hmisfit => powerOn_of_not_wf fun hwf => ?_⟩
  · obtain ⟨htone, hrate, hperiod, -⟩ := c.wf_iff.1 hwf
    rcases hfault with hzero | hbelow | hlong
    · exact htone hzero
    · exact Nat.not_lt.2 hrate hbelow
    · exact Nat.not_lt.2 hlong hperiod
  · obtain ⟨-, -, -, hfits⟩ := c.wf_iff.1 hwf
    exact Bool.false_ne_true (hmisfit.symm.trans hfits)

end Machine
end Sys2Proof
end

section
/-!
PROOFS of the family 10_state.md: `period` and the build's parameters are written by nothing (R22, R9).
-/

namespace Sys2Proof.Machine

/-- The frame of every move of the block, reset included. `State.block` keeps both fields, so they are
compared there. -/
theorem BlockMove.period_config_eq {s t : State} (h : BlockMove s t) :
    t.period = s.period ∧ t.config = s.config := by
  change t.block.period = s.block.period ∧ t.block.config = s.block.config
  rcases h with hnothing | ⟨_, _, htaken⟩ | ⟨_, _, hserved⟩ | ⟨_, _, w, u, hexec, hrun⟩ | hreset
  · simp [hnothing]
  · simp [htaken]
  · simp [hserved]
  · obtain ⟨-, -, -, hperiod, hconfig, -⟩ := exec_block_fields hexec
    have hu : u.period = s.block.period ∧ u.config = s.block.config := ⟨hperiod, hconfig⟩
    rcases hrun with hoffered | hhanded
    · simp [hoffered, hu]
    · simp [hhanded, hu]
  · simp [hreset]

/-- Settles O45: a step at either grain is a move of the block (`step_cases`). -/
theorem periodAndParametersAreConstant : Obligations.PeriodAndParametersAreConstant :=
  fun _ _ hstep => (step_cases hstep).period_config_eq

end Sys2Proof.Machine
end

section
/-!
PROOFS of the family 20_memory.md: the block's three steps that run no command, the steps of a whole
command (R48), and READs of any lengths against one READ of the sum (R53).
-/

namespace Sys2Proof

/-- The decoder reads back the encoded command (30_encoding.md R60, R61). -/
@[simp] theorem decode_encode (i : Instr) : decode (encode i) = i := by
  unfold decode
  rw [opField_encode, argField_encode]
  cases i <;> rfl

namespace Machine

theorem step_of_schedule_nil {s : State} (h : s.schedule = []) : step s = blockStep s := by
  simp only [step, h]

theorem step_of_stall {s : State} {ts : List Turn} (h : s.schedule = .stall :: ts) :
    step s = .next { s with schedule := ts } := by
  simp only [step, h]

theorem blockStep_of_owed {s : State} (hr : s.rsp = none) (ho : s.owed ≠ 0) :
    blockStep s = .next (serveByte s) := by
  simp only [blockStep, hr, Option.isSome_none, Bool.false_eq_true, if_false, if_pos ho]

theorem blockStep_of_no_command {s : State} (hr : s.rsp = none) (ho : s.owed = 0)
    (hc : s.commands = []) : blockStep s = .next s := by
  simp [blockStep, hr, ho, hc]

theorem blockStep_of_command {s : State} {w : CmdWord} {ws : List CmdWord} (hr : s.rsp = none)
    (ho : s.owed = 0) (hc : s.commands = w :: ws) :
    blockStep s = commandStep w { s with commands := ws } := by
  simp [blockStep, hr, ho, hc]

theorem serveByte_eq (s : State) : serveByte s = { emitByte s with owed := s.owed - 1 } := by
  simp [serveByte]

/-- Settles O53: one equation of `step` for each clause. -/
theorem stepsThatRunNoCommand : Obligations.StepsThatRunNoCommand := by
  refine ⟨fun s hr ho hs => ?_, fun s ts hs => step_of_stall hs, fun s hr ho hc hs => ?_⟩
  · rw [step_of_schedule_nil hs, blockStep_of_owed hr ho, serveByte_eq]
  · rw [step_of_schedule_nil hs, blockStep_of_no_command hr ho hc]

/-! The steps of a whole command. -/

/-- No command touches the host's schedule. -/
theorem exec_schedule {i : Instr} {s t : State} (h : exec i s = .next t) :
    t.schedule = s.schedule := by
  rcases exec_cases i s with ⟨_, -, -, he⟩ | ⟨_, -, -, he⟩ | ⟨_, -, -, he⟩ | ⟨_, -, -, he⟩ |
    ⟨_, -, he⟩ | ⟨_, -, he⟩ <;> rw [he] at h <;> cases h <;> rfl

/-- The first step of a command leaves its status taken and the bytes of the table owed (R66). -/
theorem commandStep_owes {w : CmdWord} {s : State} (ho : s.owed = 0) :
    ∃ t, commandStep w s = .next t ∧ t.rsp = none ∧ t.schedule = s.schedule ∧
      t.owed.toNat = bytesTable (decode w) s.gate := by
  obtain ⟨u, hu, hstep⟩ := commandStep_next w s
  obtain ⟨-, -, -, -, -, -, -, -, howed⟩ := exec_block_fields (exec_block hu)
  have hsched : u.schedule = s.schedule := by simp [exec_schedule hu]
  have hbytes : u.owed.toNat = bytesTable (decode w) s.gate := howed ho
  exact ⟨takeStatus u, hstep, by simp, by simp [hsched], by simp [hbytes]⟩

/-- With a willing host, the steps that send the owed bytes are `finish`. -/
theorem run_finish {s : State} (hr : s.rsp = none) (hs : s.schedule = []) :
    Host.Core.run Sys2Proof.core s.owed.toNat s = .next (finish s) :=
  run_owed s.owed.toNat s hr hs rfl

/-- Settles O41: the first step is `commandStep`, which owes the bytes of the table; the steps that send
them are `finish`. -/
theorem stepsOfACommandAreTheCommand : Obligations.StepsOfACommandAreTheCommand := by
  intro s w ws hr ho hc hs
  obtain ⟨t, hstep, htr, hts, hto⟩ := commandStep_owes (w := w) (s := { s with commands := ws }) ho
  have hfirst : step s = .next t := by
    rw [step_of_schedule_nil hs, blockStep_of_command hr ho hc, hstep]
  rw [run_next _ hfirst, ← hto, run_finish htr (hts.trans hs), complete, hstep]
  rfl

/-! READs of any lengths. -/

/-- `produce_bytes` neither reads the record of transfers nor the offer on the wires. -/
theorem produceBytes_record (k : Nat) (s : State) (off : Option CmdWord) (tr : List Event) :
    produceBytes k { s with offered := off, trace := tr } = { produceBytes k s with
      offered := off, trace := tr ++ (producedBytes k s).map Event.byte } := by
  rw [produceBytes_outer k s s.gate s.owed s.rsp off s.wait s.draws s.commands s.schedule tr]
  apply State.ext <;> simp

theorem producedBytes_record (k : Nat) (s : State) (off : Option CmdWord) (tr : List Event) :
    producedBytes k { s with offered := off, trace := tr } = producedBytes k s :=
  producedBytes_congr k _ s rfl rfl rfl (.inr rfl) rfl

/-- `t` is `s` after `produce_bytes(n)`, but for the offer on the wires and the commands and statuses in
the record of transfers. -/
def ReadsOut (n : Nat) (s t : State) : Prop :=
  ∃ off tr, t = { produceBytes n s with offered := off, trace := tr } ∧
    bytesIn tr = bytesIn s.trace ++ producedBytes n s

theorem ReadsOut.refl (s : State) : ReadsOut 0 s s :=
  ⟨s.offered, s.trace, rfl, (List.append_nil _).symm⟩

/-- Readings compose as `produce_bytes` does (R98). -/
theorem ReadsOut.trans {m n : Nat} {s t u : State} (hst : ReadsOut m s t) (htu : ReadsOut n t u) :
    ReadsOut (m + n) s u := by
  obtain ⟨off, tr, rfl, hbytes⟩ := hst
  obtain ⟨off', tr', rfl, hbytes'⟩ := htu
  refine ⟨off', tr', ?_, ?_⟩
  · rw [produceBytes_record, produceBytes_add]
  · rw [hbytes', producedBytes_record, hbytes, producedBytes_add, List.append_assoc]

/-- Two readings of the same length from one state differ in their records only. -/
theorem ReadsOut.unique {n : Nat} {s t u : State} (ht : ReadsOut n s t) (hu : ReadsOut n s u) :
    bytesIn t.trace = bytesIn u.trace ∧ { t with trace := u.trace, offered := u.offered } = u := by
  obtain ⟨_, _, rfl, hbytes⟩ := ht
  obtain ⟨_, _, rfl, hbytes'⟩ := hu
  exact ⟨hbytes.trans hbytes'.symm, rfl⟩

theorem ReadsOut.length_bytes {n : Nat} {s t : State} (h : ReadsOut n s t) :
    (bytesIn t.trace).length = (bytesIn s.trace).length + n := by
  obtain ⟨_, _, rfl, hbytes⟩ := h
  simp [hbytes]

/-- The command word of a READ of `n` bytes, for `n` below `2^32` (R62). -/
def readWord (n : Nat) : CmdWord := encode (.readCmd (BitVec.ofNat 32 n))

theorem decode_readWord (n : Nat) : decode (readWord n) = .readCmd (BitVec.ofNat 32 n) :=
  decode_encode _

theorem completed_readWord_gate {s : State} (n : Nat) : (completed (readWord n) s).gate = s.gate := by
  rw [completed_gate, decode_readWord, gateTable]

/-- One READ of the holder is a reading of its operand (R122). -/
theorem readsOut_completed_readWord {s : State} {n : Nat} (hi : idle s = true)
    (hg : s.gate = .held) (hn : n < 2 ^ 32) : ReadsOut n s (completed (readWord n) s) := by
  obtain ⟨hr, ho⟩ := (idle_iff s).mp hi
  have hcount : (BitVec.ofNat 32 n).toNat = n := Nat.mod_eq_of_lt hn
  have hread := completed_read (decode_readWord n) hg
  rw [hcount] at hread
  refine ⟨none, s.trace ++ .command (readWord n) :: .status .ok ::
    (producedBytes n s).map Event.byte, ?_, ?_⟩
  · rw [hread]
    apply State.ext <;> simp [hr, ho]
  · simp [bytesIn]

/-- READs of the holder, one after another, are a reading of the sum of their operands. -/
theorem readsOut_completedAll_readWords {s : State} (ns : List Nat) (hi : idle s = true)
    (hg : s.gate = .held) (hsum : ns.sum < 2 ^ 32) :
    ReadsOut ns.sum s (completedAll (ns.map readWord) s) := by
  induction ns generalizing s with
  | nil => exact .refl s
  | cons n ns ih =>
    rw [List.sum_cons] at hsum ⊢
    have hfirst := readsOut_completed_readWord hi hg (n := n) (by omega)
    exact hfirst.trans (ih (completed_idle _ s) ((completed_readWord_gate n).trans hg) (by omega))

/-- Settles O21: both runs are readings of the sum (`ReadsOut`), and such a reading is unique but for
the record. -/
theorem splitReadsEqualOneRead : Obligations.SplitReadsEqualOneRead := by
  intro ns s hi hg hsum
  have hsplit := readsOut_completedAll_readWords ns hi hg hsum
  have hone := readsOut_completed_readWord hi hg hsum
  obtain ⟨hbytes, hstate⟩ := hsplit.unique hone
  exact ⟨_, _, completeAll_eq (ns.map readWord) hi, complete_eq (readWord ns.sum) hi, hbytes,
    hsplit.length_bytes, hstate⟩

end Machine
end Sys2Proof
end

section
/-!
PROOFS of the family 30_encoding.md: the fields `op` and `arg` determine a command word (R60, R61), the mask
and match columns (R61), the ignored operands (R63), and the bytes of a sample with their inverse (R67).
-/

namespace Sys2Proof

/-! The command word. -/

/-- A command word is its two fields, `{op, arg}` (R60). -/
theorem opField_append_argField (w : CmdWord) : opField w ++ argField w = w :=
  BitVec.extractLsb'_append_extractLsb'

theorem cmdWord_eq_iff {v w : CmdWord} :
    v = w ↔ opField v = opField w ∧ argField v = argField w := by
  refine ⟨fun h => h ▸ ⟨rfl, rfl⟩, fun ⟨hop, harg⟩ => ?_⟩
  rw [← opField_append_argField v, ← opField_append_argField w, hop, harg]

/-- No bit of a command word is lost by decoding it (R64). -/
@[simp] theorem encode_decode (w : CmdWord) : encode (decode w) = w :=
  cmdWord_eq_iff.2 ⟨by simp, by simp⟩

/-- Settles O1. -/
theorem decodeAndEncodeAreInverse : Obligations.DecodeAndEncodeAreInverse :=
  ⟨decode_encode, encode_decode⟩

/-! Mask and match. -/

theorem decode_eq_iff {w : CmdWord} {i : Instr} :
    decode w = i ↔ opField w = opOf i ∧ argField w = argOf i := by
  calc decode w = i ↔ w = encode i :=
        ⟨fun h => h ▸ (encode_decode w).symm, fun h => h ▸ decode_encode i⟩
    _ ↔ opField w = opOf i ∧ argField w = argOf i := by
        rw [cmdWord_eq_iff, opField_encode, argField_encode]

/-- The mask of R61 keeps `op`. -/
theorem opField_mask (w : CmdWord) : opField (w &&& 0x300000000#34) = opField w := by
  have hmask : (0x300000000#34).extractLsb' 32 2 = BitVec.allOnes 2 := by decide
  rw [opField, BitVec.extractLsb'_and, hmask, BitVec.and_allOnes, opField]

/-- The mask of R61 clears `arg`. -/
theorem argField_mask (w : CmdWord) : argField (w &&& 0x300000000#34) = 0 := by
  have hmask : (0x300000000#34).extractLsb' 0 32 = 0#32 := by decide
  rw [argField, BitVec.extractLsb'_and, hmask, BitVec.and_zero]
  rfl

/-- A match value `m` with the `op` code of a command and no operand bits selects that command. -/
theorem mask_eq_iff_decode_eq {m w : CmdWord} {i : Instr} (hop : opField m = opOf i)
    (harg : argField m = 0) (hi : argOf i = argField w) :
    w &&& 0x300000000#34 = m ↔ decode w = i := by
  rw [cmdWord_eq_iff, opField_mask, argField_mask, hop, harg, decode_eq_iff, hi]
  simp

/-- The operand as the low 32 bits of the word (R62). -/
theorem setWidth_eq_argField (w : CmdWord) : w.setWidth 32 = argField w :=
  BitVec.setWidth_eq_extractLsb' (by decide)

/-- Settles O2: each match value carries the `op` code of its command and no operand bits. -/
theorem maskAndMatchSelectTheCommand : Obligations.MaskAndMatchSelectTheCommand := fun w =>
  have harg := setWidth_eq_argField w
  ⟨mask_eq_iff_decode_eq rfl rfl harg,
    mask_eq_iff_decode_eq rfl rfl harg,
    mask_eq_iff_decode_eq rfl rfl harg,
    mask_eq_iff_decode_eq rfl rfl harg⟩

namespace Machine

/-! The ignored operands. -/

theorem execOpen_arg (a b : Word) : execOpen a = execOpen b := rfl

theorem execWrite_arg (a b : Word) : execWrite a = execWrite b := rfl

theorem execClose_arg (a b : Word) : execClose a = execClose b := rfl

/-- Settles O4: the arms of `exec` are the three meanings, which do not look at the operand. -/
theorem operandOfOpenWriteCloseIsIgnored : Obligations.OperandOfOpenWriteCloseIsIgnored :=
  fun a b s => ⟨congrFun (execOpen_arg a b) s, congrFun (execWrite_arg a b) s,
    congrFun (execClose_arg a b) s⟩

/-! The bytes of a sample. -/

/-- The multiplexer (R94) as a quotient. -/
theorem byteSelect_toNat (u : Word) (k : Cursor) :
    (byteSelect u k).toNat = u.toNat / 2 ^ (8 * k.toNat) % 256 := by
  rw [byteSelect, BitVec.extractLsb'_toNat, Nat.shiftRight_eq_div_pow]

/-- The quotients at the four cursors, with the weights of R67. -/
theorem byteSelect_toNat_cursors (u : Word) :
    (byteSelect u 0).toNat = u.toNat % 256 ∧
    (byteSelect u 1).toNat = u.toNat / 256 % 256 ∧
    (byteSelect u 2).toNat = u.toNat / 65536 % 256 ∧
    (byteSelect u 3).toNat = u.toNat / 16777216 % 256 := by
  have hbyte := byteSelect_toNat u
  exact ⟨(hbyte 0).trans (by rw [show 2 ^ (8 * (0 : Cursor).toNat) = 1 from rfl, Nat.div_one]),
    hbyte 1, hbyte 2, hbyte 3⟩

/-- Byte 0 is the sample modulo 256. -/
theorem byteSelect_bits32_zero (s : Int) : byteSelect (bits32 s) 0 = BitVec.ofInt 8 s := by
  apply BitVec.eq_of_toNat_eq
  obtain ⟨hbyte, -⟩ := byteSelect_toNat_cursors (bits32 s)
  rw [hbyte, bits32, BitVec.toNat_ofInt, BitVec.toNat_ofInt]
  omega

/-- A pattern below 256 fills byte 0 only. -/
theorem byteSelect_of_lt {u : Word} {k : Cursor} (hu : u.toNat < 256) (hk : k ≠ 0) :
    byteSelect u k = 0x00#8 := by
  have hpos : 0 < k.toNat := Nat.pos_of_ne_zero fun h => hk (BitVec.eq_of_toNat_eq h)
  have hpow : 2 ^ 8 ≤ 2 ^ (8 * k.toNat) := Nat.pow_le_pow_right (by decide) (by omega)
  apply BitVec.eq_of_toNat_eq
  rw [byteSelect_toNat, Nat.div_eq_of_lt (hu.trans_le hpow)]
  rfl

theorem byteSelect_not (u : Word) (k : Cursor) : byteSelect (~~~u) k = ~~~byteSelect u k := by
  apply BitVec.eq_of_getLsbD_eq
  intro j hj
  have hbit : 8 * k.toNat + j < 32 := by omega
  simp [byteSelect, hj, hbit]

/-- The pattern of a negative sample is the complement of the pattern of `-s - 1`. -/
theorem bits32_of_neg {s : Int} (hs : s < 0) : bits32 s = ~~~bits32 (-s - 1) := by
  obtain ⟨n, rfl⟩ := Int.eq_negSucc_of_lt_zero hs
  have hn : -Int.negSucc n - 1 = (n : Int) := by omega
  rw [hn, bits32, bits32, BitVec.ofInt_negSucc_eq_not_ofNat, BitVec.ofInt_natCast]

theorem byteSelect_bits32_of_nonneg {s : Int} {k : Cursor} (h0 : 0 ≤ s) (hs : s < 256)
    (hk : k ≠ 0) : byteSelect (bits32 s) k = 0x00#8 := by
  refine byteSelect_of_lt ?_ hk
  rw [bits32, BitVec.toNat_ofInt]
  omega

theorem byteSelect_bits32_of_neg {s : Int} {k : Cursor} (hs : -256 ≤ s) (h0 : s < 0)
    (hk : k ≠ 0) : byteSelect (bits32 s) k = 0xFF#8 := by
  rw [bits32_of_neg h0, byteSelect_not, byteSelect_bits32_of_nonneg (by omega) (by omega) hk]
  rfl

/-- The four bytes in emission order give the pattern back (R67). -/
theorem joinBytes_byteSelect (u : Word) :
    joinBytes (byteSelect u 0) (byteSelect u 1) (byteSelect u 2) (byteSelect u 3) = u := by
  apply BitVec.eq_of_toNat_eq
  obtain ⟨h0, h1, h2, h3⟩ := byteSelect_toNat_cursors u
  rw [joinBytes, BitVec.toNat_ofNat, h0, h1, h2, h3]
  omega

/-- `signed32` is the inverse of `bits32` on S32 (R12). -/
theorem signed32_bits32 {s : Int} (hlo : -2 ^ 31 ≤ s) (hhi : s < 2 ^ 31) :
    signed32 (bits32 s) = s :=
  BitVec.toInt_ofInt_eq_self (by decide) hlo hhi

/-- Settles O14: `byteSelect_toNat` for the quotients, one lemma for each short form, and the two
inverses for the last clause. -/
theorem sampleBytesAndTheirInverse : Obligations.SampleBytesAndTheirInverse := by
  intro s hlo hhi
  refine ⟨fun k => byteSelect_toNat (bits32 s) k, fun h0 hs => ⟨byteSelect_bits32_zero s, ?_⟩,
    fun hs h0 => ⟨?_, ?_⟩, ?_⟩
  · exact fun k hk => byteSelect_bits32_of_nonneg h0 hs hk
  · have h256 : BitVec.ofInt 8 256 = 0#8 := rfl
    rw [byteSelect_bits32_zero, BitVec.ofInt_add, h256, BitVec.add_zero]
  · exact fun k hk => byteSelect_bits32_of_neg hs h0 hk
  · rw [joinBytes_byteSelect, signed32_bits32 hlo hhi]

end Machine
end Sys2Proof
end

section
/-!
PROOFS of the family 40_sine_function.md: SINE repeats with its period (R82), and so does the stream below the
wrap of `phase` (R103); bound, sign, zeros, peaks and symmetries of `SINE_REF` (R86).
-/

namespace Sys2Proof.Machine

/-! The index in the period. -/

@[simp] theorem sineIndex_mod (p n : Word) : sineIndex (p % n) n = sineIndex p n := by
  rw [sineIndex, BitVec.toNat_umod, Nat.mod_mod, sineIndex]

/-- Settles O26: SINE sees the phase through its index only. -/
theorem sineIsPeriodic : Obligations.SineIsPeriodic :=
  fun f p n _ => sine_congr f (sineIndex_mod p n).symm

/-- Advancing the phase advances the index, as long as the phase does not wrap. -/
theorem sineIndex_add_ofNat {p : Word} {k : Nat} (n : Word) (h : p.toNat + k < 2 ^ 32) :
    sineIndex (p + BitVec.ofNat 32 k) n = (p.toNat + k) % n.toNat := by
  rw [sineIndex, BitVec.toNat_add, BitVec.toNat_ofNat, Nat.add_mod_mod, Nat.mod_eq_of_lt h]

/-- One period later the sample is the same, as long as the phase does not wrap. -/
theorem sampleAt_add_period {s : State} {p : Word} {k : Nat}
    (h : p.toNat + k + s.period.toNat < 2 ^ 32) :
    sampleAt s (p + BitVec.ofNat 32 (k + s.period.toNat)) = sampleAt s (p + BitVec.ofNat 32 k) := by
  refine sine_congr _ ?_
  rw [sineIndex_add_ofNat _ (by omega), sineIndex_add_ofNat _ (by omega), ← Nat.add_assoc,
    Nat.add_mod_right]

/-- Settles O22: `4N` bytes later stands the same byte of the sample `N` ticks later. -/
theorem streamIsPeriodicBelowTheWrap : Obligations.StreamIsPeriodicBelowTheWrap := by
  intro s j _ hwrap
  have htick : (j + 4 * s.period.toNat) / 4 = j / 4 + s.period.toNat := by omega
  have hcursor : (j + 4 * s.period.toNat) % 4 = j % 4 := by omega
  rw [closedByte, closedByte, htick, hcursor, sampleAt_add_period hwrap]

/-! The magnitude of `SINE_REF`. -/

/-- `16 * q <= den`, so the peak of the quotient is `SINE_AMPL` (R85). -/
theorem sineMag_le {u n : Nat} (h : u ≤ n) : sineMag u n ≤ 127 := by
  have hq := four_mul_q_le h
  have h5 : 5 * n * n = 5 * (n * n) := Nat.mul_assoc ..
  refine Nat.div_le_of_le_mul ?_
  simp only [Config.sineAmpl]
  omega

@[simp] theorem sineMag_zero (n : Nat) : sineMag 0 n = 0 := by simp [sineMag]

/-- In the middle of a half-wave `den = 16 * q`. -/
theorem sineMag_half {n : Nat} (hn : 1 ≤ n) (heven : n % 2 = 0) : sineMag (n / 2) n = 127 := by
  have hq : n - n / 2 = n / 2 := by omega
  have hpos : 0 < n / 2 := by omega
  have hden : 5 * n * n - 4 * (n / 2 * (n / 2)) = 16 * (n / 2 * (n / 2)) := by
    have hsq : 5 * n * n = 20 * (n / 2 * (n / 2)) := by
      conv_lhs => rw [← Nat.mul_div_cancel' (Nat.dvd_of_mod_eq_zero heven)]
      ring
    omega
  simp only [sineMag, hq, hden, Config.sineAmpl]
  exact Nat.div_eq_of_eq_mul_right (by positivity) (by ring)

theorem sineMag_symm {u n : Nat} (h : u ≤ n) : sineMag (n - u) n = sineMag u n := by
  simp only [sineMag, Nat.sub_sub_self h, Nat.mul_comm (n - u) u]

/-! The two half-waves of `SINE_REF`. -/

theorem sineRef_firstHalf {p n : Nat} (h : 2 * (p % n) < n) :
    sineRef p n = sineMag (2 * (p % n)) n := if_pos h

theorem sineRef_secondHalf {p n : Nat} (h : n ≤ 2 * (p % n)) :
    sineRef p n = -sineMag (2 * (p % n) - n) n := if_neg (Nat.not_lt.2 h)

theorem sineRef_firstHalf_bounds {p n : Nat} (h : 2 * (p % n) < n) :
    0 ≤ sineRef p n ∧ sineRef p n ≤ 127 := by
  have hmag : sineMag (2 * (p % n)) n ≤ 127 := sineMag_le h.le
  rw [sineRef_firstHalf h]
  omega

theorem sineRef_secondHalf_bounds {p n : Nat} (hn : 1 ≤ n) (h : n ≤ 2 * (p % n)) :
    -127 ≤ sineRef p n ∧ sineRef p n ≤ 0 := by
  have hi : p % n < n := Nat.mod_lt p hn
  have hmag : sineMag (2 * (p % n) - n) n ≤ 127 := sineMag_le (by omega)
  rw [sineRef_secondHalf h]
  omega

/-- Settles O28: each half-wave has its own bounds. -/
theorem sineRefBoundAndSign : Obligations.SineRefBoundAndSign := by
  intro p n hn
  rcases Nat.lt_or_ge (2 * (p % n)) n with hfirst | hsecond
  · obtain ⟨hlo, hhi⟩ := sineRef_firstHalf_bounds hfirst
    omega
  · obtain ⟨hlo, hhi⟩ := sineRef_secondHalf_bounds hn hsecond
    omega

/-- Settles O29: the zeros are the starts of the half-waves, the peaks their middles. -/
theorem sineRefZerosAndPeaks : Obligations.SineRefZerosAndPeaks := by
  intro p n hn
  refine ⟨fun hi => ?_, fun heven hi => ?_, fun hfour hi => ?_, fun hfour hi => ?_⟩
  · rw [sineRef_firstHalf (by omega), hi]
    simp
  · rw [sineRef_secondHalf (by omega), show 2 * (p % n) - n = 0 by omega]
    simp
  · rw [sineRef_firstHalf (by omega), show 2 * (p % n) = n / 2 by omega,
      sineMag_half hn (by omega)]
    rfl
  · rw [sineRef_secondHalf (by omega), show 2 * (p % n) - n = n / 2 by omega,
      sineMag_half hn (by omega)]
    rfl

/-- Half a period later the index is in the other half-wave, at the same position. -/
theorem add_half_mod {m : Nat} (p : Nat) (hm : 0 < m) :
    (p + m) % (2 * m) = if p % (2 * m) < m then p % (2 * m) + m else p % (2 * m) - m := by
  have hi : p % (2 * m) < 2 * m := Nat.mod_lt p (by omega)
  rw [← Nat.mod_add_mod]
  split
  · exact Nat.mod_eq_of_lt (by omega)
  · rw [Nat.mod_eq_sub_mod (by omega), Nat.mod_eq_of_lt (by omega)]
    omega

theorem sineRef_add_half {m : Nat} (p : Nat) (hm : 0 < m) :
    sineRef (p + m) (2 * m) = -sineRef p (2 * m) := by
  have hshift := add_half_mod p hm
  rcases Nat.lt_or_ge (p % (2 * m)) m with hfirst | hsecond
  · rw [if_pos hfirst] at hshift
    rw [sineRef_secondHalf (by omega), sineRef_firstHalf (by omega), hshift, Nat.mul_add,
      Nat.add_sub_cancel]
  · rw [if_neg (by omega)] at hshift
    have hi : p % (2 * m) < 2 * m := Nat.mod_lt p (by omega)
    rw [sineRef_firstHalf (by omega), sineRef_secondHalf (by omega), hshift, neg_neg, Nat.mul_sub]

/-- Settles O30, with `n = 2 * (n / 2)` for even `n`. -/
theorem sineRefSymmetries : Obligations.SineRefSymmetries := by
  refine ⟨fun p n hn heven => ?_, fun u n hu => (sineMag_symm hu).symm⟩
  have hshift := sineRef_add_half p (m := n / 2) (by omega)
  rwa [Nat.mul_div_cancel' (Nat.dvd_of_mod_eq_zero heven)] at hshift

end Sys2Proof.Machine
end

section
/-!
PROOFS of the family 41_oscillator_engine.md: EMIT (R90), the cursor law (R95, R102), the phase advance law
(R93, R101), the closed forms of `k` EMIT steps (R98 to R100), and which steps of the machine tick (R91).
-/

namespace Sys2Proof.Machine

/-! EMIT in its two rows. -/

theorem emitByte_of_boundary {s : State} (hc : s.cursor = 0) :
    emitByte s = { s with
      sample := sampleAt s s.phase, phase := s.phase + 1, cursor := 1
      trace := s.trace ++ [.byte (byteSelect (sampleAt s s.phase) 0)] } := by
  rw [emitByte_eq, nextByte_eq, currentSample_eq, if_pos hc, if_pos hc, hc]
  rfl

theorem emitByte_inside {s : State} (hc : s.cursor ≠ 0) :
    emitByte s = { s with
      cursor := s.cursor + 1
      trace := s.trace ++ [.byte (byteSelect s.sample s.cursor)] } := by
  rw [emitByte_eq, nextByte_eq, currentSample_eq, if_neg hc, if_neg hc]

/-- Settles O13: the two rows, the byte as a bit slice of the pattern (`byteSelect`, R94). -/
theorem emitIsOneByteStep : Obligations.EmitIsOneByteStep :=
  fun _ => ⟨emitByte_of_boundary, emitByte_inside⟩

/-! The last of `k + 1` EMIT steps. -/

theorem produceBytes_succ (k : Nat) (s : State) :
    produceBytes (k + 1) s = emitByte (produceBytes k s) :=
  produceBytes_add k 1 s

theorem producedBytes_succ (k : Nat) (s : State) :
    producedBytes (k + 1) s = producedBytes k s ++ [nextByte (produceBytes k s)] :=
  producedBytes_add k 1 s

/-- SINE of this block stays the same function while it runs (R82). -/
@[simp] theorem sampleAt_produceBytes (k : Nat) (s : State) (p : Word) :
    sampleAt (produceBytes k s) p = sampleAt s p := by
  simp [sampleAt]

theorem produceBytes_cursor_toNat (k : Nat) (s : State) :
    (produceBytes k s).cursor.toNat = (s.cursor.toNat + k) % 4 := by
  simp [BitVec.toNat_add]

theorem produceBytes_cursor_eq_zero_iff (k : Nat) (s : State) :
    (produceBytes k s).cursor = 0 ↔ (s.cursor.toNat + k) % 4 = 0 := by
  rw [← produceBytes_cursor_toNat, ← BitVec.toNat_inj]
  rfl

theorem produceBytes_succ_of_tick {k : Nat} {s : State} (h : (s.cursor.toNat + k) % 4 = 0) :
    (produceBytes (k + 1) s).phase = (produceBytes k s).phase + 1 ∧
    (produceBytes (k + 1) s).sample = sampleAt s (produceBytes k s).phase := by
  rw [produceBytes_succ, emitByte_of_boundary ((produceBytes_cursor_eq_zero_iff k s).2 h)]
  exact ⟨rfl, sampleAt_produceBytes ..⟩

theorem produceBytes_succ_of_no_tick {k : Nat} {s : State} (h : (s.cursor.toNat + k) % 4 ≠ 0) :
    (produceBytes (k + 1) s).phase = (produceBytes k s).phase ∧
    (produceBytes (k + 1) s).sample = (produceBytes k s).sample := by
  rw [produceBytes_succ, emitByte_inside ((produceBytes_cursor_eq_zero_iff k s).not.2 h)]
  exact ⟨rfl, rfl⟩

/-- Settles O16: a step that does not tick keeps `phase`, so it does not add 1 to it. -/
theorem cursorLaw : Obligations.CursorLaw := by
  intro k s
  refine ⟨produceBytes_cursor_toNat k s, ⟨fun h => (produceBytes_succ_of_tick h).1, fun hphase => ?_⟩,
    fun h => (produceBytes_succ_of_tick h).2, produceBytes_succ_of_no_tick⟩
  by_contra h
  rw [(produceBytes_succ_of_no_tick h).1] at hphase
  exact absurd hphase (by simp)

/-! The number of ticks. -/

theorem tickCount_zero (c : Nat) : tickCount c 0 = 0 := Nat.sub_self _

theorem tickCount_succ_of_tick {c k : Nat} (h : (c + k) % 4 = 0) :
    tickCount c (k + 1) = tickCount c k + 1 := by
  unfold tickCount
  omega

theorem tickCount_succ_of_no_tick {c k : Nat} (h : (c + k) % 4 ≠ 0) :
    tickCount c (k + 1) = tickCount c k := by
  unfold tickCount
  omega

theorem tickCount_four_mul (c n : Nat) : tickCount c (4 * n) = n := by
  unfold tickCount
  omega

theorem tickCount_from_boundary (k : Nat) : tickCount 0 k = (k + 3) / 4 := by
  unfold tickCount
  omega

theorem tickCount_inside {c k : Nat} (hc : c < 4) (h0 : c ≠ 0) (hk : k ≤ 4 - c) :
    tickCount c k = 0 := by
  unfold tickCount
  omega

/-- `T(c, k)` counts the steps among the first `k` that find the cursor at 0 (R101). -/
theorem tickCount_eq_length_filter (c k : Nat) :
    tickCount c k = ((List.range k).filter fun j => (c + j) % 4 = 0).length := by
  induction k with
  | zero => exact tickCount_zero c
  | succ k ih =>
    rw [List.range_succ, List.filter_append, List.length_append, ← ih]
    by_cases h : (c + k) % 4 = 0
    · rw [tickCount_succ_of_tick h]
      simp [h]
    · rw [tickCount_succ_of_no_tick h]
      simp [h]

theorem produceBytes_phase (k : Nat) (s : State) :
    (produceBytes k s).phase = s.phase + BitVec.ofNat 32 (tickCount s.cursor.toNat k) := by
  induction k with
  | zero => simp [produceBytes, tickCount_zero]
  | succ k ih =>
    by_cases h : (s.cursor.toNat + k) % 4 = 0
    · rw [(produceBytes_succ_of_tick h).1, tickCount_succ_of_tick h, ih, BitVec.add_assoc,
        ← BitVec.ofNat_add_ofNat]
      rfl
    · rw [(produceBytes_succ_of_no_tick h).1, tickCount_succ_of_no_tick h, ih]

/-- Settles O17: `produceBytes_phase` for the register, the arithmetic of `T` for the rest. -/
theorem phaseAdvanceLaw : Obligations.PhaseAdvanceLaw :=
  ⟨produceBytes_phase, fun c k _ => tickCount_eq_length_filter c k, tickCount_four_mul,
    tickCount_from_boundary, fun _ _ => tickCount_inside, tickCount_from_boundary 1⟩

/-- Settles O15: four steps tick once, from any cursor. -/
theorem phaseWrapsSilently : Obligations.PhaseWrapsSilently := by
  refine fun s => ⟨fun hc hphase => ?_, ?_⟩
  · rw [emitByte_of_boundary hc, hphase]
    exact ⟨rfl, rfl⟩
  · rw [produceBytes_phase, tickCount_four_mul _ 1]
    rfl

/-! The closed form of `k` EMIT steps, from any cursor. -/

/-- The stored sample after `n` ticks: SINE of the phase before the last of them (R91). -/
def sampleAfter (s : State) (n : Nat) : Word :=
  if n = 0 then s.sample else sampleAt s (s.phase + BitVec.ofNat 32 (n - 1))

theorem sampleAfter_zero (s : State) : sampleAfter s 0 = s.sample := rfl

theorem sampleAfter_succ (s : State) (n : Nat) :
    sampleAfter s (n + 1) = sampleAt s (s.phase + BitVec.ofNat 32 n) := rfl

theorem produceBytes_sample (k : Nat) (s : State) :
    (produceBytes k s).sample = sampleAfter s (tickCount s.cursor.toNat k) := by
  induction k with
  | zero => rw [tickCount_zero, sampleAfter_zero, produceBytes]
  | succ k ih =>
    by_cases h : (s.cursor.toNat + k) % 4 = 0
    · rw [(produceBytes_succ_of_tick h).2, tickCount_succ_of_tick h, sampleAfter_succ,
        produceBytes_phase]
    · rw [(produceBytes_succ_of_no_tick h).2, tickCount_succ_of_no_tick h, ih]

/-- Byte `j` comes from the sample that step `j` leaves stored (R94). -/
theorem nextByte_produceBytes (j : Nat) (s : State) :
    nextByte (produceBytes j s) =
      byteSelect (sampleAfter s (tickCount s.cursor.toNat (j + 1)))
        (s.cursor + BitVec.ofNat 2 j) := by
  rw [nextByte_eq, ← emitByte_sample, ← produceBytes_succ, produceBytes_sample]
  simp

theorem producedBytes_eq_map (k : Nat) (s : State) :
    producedBytes k s = (List.range k).map fun j => nextByte (produceBytes j s) := by
  induction k with
  | zero => rfl
  | succ k ih => rw [producedBytes_succ, ih, List.range_succ, List.map_append, List.map_singleton]

/-- The end state of `k` EMIT steps when byte `j` of them is `f j`. -/
theorem produceBytes_eq {k : Nat} {s : State} {f : Nat → Byte}
    (hbyte : ∀ j < k, nextByte (produceBytes j s) = f j) :
    produceBytes k s = { s with
      phase := s.phase + BitVec.ofNat 32 (tickCount s.cursor.toNat k)
      sample := sampleAfter s (tickCount s.cursor.toNat k)
      cursor := s.cursor + BitVec.ofNat 2 k
      trace := s.trace ++ (List.range k).map fun j => .byte (f j) } := by
  have hbytes : (producedBytes k s).map Event.byte = (List.range k).map fun j => .byte (f j) := by
    rw [producedBytes_eq_map, List.map_map]
    exact List.map_congr_left fun j hj => congrArg Event.byte (hbyte j (List.mem_range.1 hj))
  apply State.ext <;> simp [produceBytes_phase, produceBytes_sample, hbytes]

/-! From a sample boundary. -/

theorem tickCount_of_boundary {s : State} (hc : s.cursor = 0) (k : Nat) :
    tickCount s.cursor.toNat k = (k + 3) / 4 := by
  rw [hc]
  exact tickCount_from_boundary k

theorem cursor_add_of_boundary {s : State} (hc : s.cursor = 0) (k : Nat) :
    s.cursor + BitVec.ofNat 2 k = BitVec.ofNat 2 (k % 4) := by
  apply BitVec.eq_of_toNat_eq
  simp [hc]

theorem nextByte_produceBytes_from_boundary {s : State} (hc : s.cursor = 0) (j : Nat) :
    nextByte (produceBytes j s) = closedByte s s.phase j := by
  have hticks : (j + 1 + 3) / 4 = j / 4 + 1 := by omega
  rw [nextByte_produceBytes, tickCount_of_boundary hc, cursor_add_of_boundary hc, hticks,
    sampleAfter_succ, closedByte]

/-- Settles O18: the closed form with the bytes of `closedByte` and `T(0, k) = (k + 3) div 4`. -/
theorem closedFormFromSampleBoundary : Obligations.ClosedFormFromSampleBoundary := by
  intro k s hc
  have hnone : (k + 3) / 4 = 0 ↔ k = 0 := by omega
  rw [produceBytes_eq fun j _ => nextByte_produceBytes_from_boundary hc j,
    tickCount_of_boundary hc, cursor_add_of_boundary hc]
  simp only [sampleAfter, hnone]

/-! From inside a sample. -/

/-- Up to the next sample boundary the bytes come from the stored sample, with no tick. -/
theorem produceBytes_inside {k : Nat} {s : State} (hc : s.cursor ≠ 0)
    (hk : k ≤ 4 - s.cursor.toNat) :
    produceBytes k s = { s with
      cursor := s.cursor + BitVec.ofNat 2 k
      trace := s.trace ++ (List.range k).map fun j =>
        .byte (byteSelect s.sample (s.cursor + BitVec.ofNat 2 j)) } := by
  have h0 : s.cursor.toNat ≠ 0 := fun h => hc (BitVec.eq_of_toNat_eq h)
  have hnone : ∀ j ≤ k, tickCount s.cursor.toNat j = 0 := fun j hj =>
    tickCount_inside s.cursor.isLt h0 (hj.trans hk)
  have hbyte : ∀ j < k, nextByte (produceBytes j s) =
      byteSelect s.sample (s.cursor + BitVec.ofNat 2 j) := fun j hj => by
    rw [nextByte_produceBytes, hnone (j + 1) hj, sampleAfter_zero]
  rw [produceBytes_eq hbyte, hnone k le_rfl, sampleAfter_zero, BitVec.add_zero]

/-- The bytes left of a sample bring the cursor back to 0. -/
theorem cursor_add_bytes_left (c : Cursor) : c + BitVec.ofNat 2 (4 - c.toNat) = 0 := by
  revert c
  decide

/-- Settles O19: a run past the boundary is the run up to it, then the rest. -/
theorem closedFormInsideSample : Obligations.ClosedFormInsideSample := by
  refine fun k s hc => ⟨produceBytes_inside hc, fun hk => ?_⟩
  calc produceBytes k s
    _ = produceBytes (4 - s.cursor.toNat + (k - (4 - s.cursor.toNat))) s := by
        rw [Nat.add_sub_cancel' hk.le]
    _ = produceBytes (k - (4 - s.cursor.toNat)) (produceBytes (4 - s.cursor.toNat) s) :=
        produceBytes_add ..
    _ = _ := by rw [produceBytes_inside hc le_rfl, cursor_add_bytes_left]

/-! Two runs in a row. -/

theorem produceBytes_trace (k : Nat) (s : State) :
    (produceBytes k s).trace = s.trace ++ (producedBytes k s).map Event.byte :=
  (produceBytes_fields k s).1

/-- Settles O20 with the bytes of the two runs (`producedBytes_add`). -/
theorem producingIsResumable : Obligations.ProducingIsResumable := fun a b s =>
  ⟨producedBytes a s, producedBytes b (produceBytes a s), producedBytes_length ..,
    producedBytes_length .., produceBytes_trace a s, produceBytes_trace b _,
    by rw [produceBytes_trace, producedBytes_add], produceBytes_add a b s⟩

/-! The steps of the machine. -/

/-- Settles O46: of the five moves of the block only a byte served and a reset write the two registers, and
a byte inside a sample writes neither. -/
theorem onlyTicksMoveThePhase : Obligations.OnlyTicksMoveThePhase := by
  intro s t hstep hmoved
  have hstill : t.phase = s.phase → t.sample ≠ s.sample := fun hphase hsample =>
    hmoved.elim (· hphase) (· hsample)
  rcases blockMove_fields (step_cases hstep) with ⟨hphase, -, hsample, -⟩ |
    ⟨_, -, -, -, hphase, -, hsample, -⟩ |
    ⟨hrsp, howed, -, -, htrace, hcursor, hphase, hsample, -⟩ |
    ⟨-, -, _, -, -, -, hphase, -, hsample, -⟩ | ⟨-, -, -, -, -, -, htrace, -⟩
  · exact absurd hsample (hstill hphase)
  · exact absurd hsample (hstill hphase)
  · by_cases hc : s.cursor = 0
    · rw [if_pos hc] at hphase hsample
      exact .inr ⟨hc, howed, hrsp, hphase, hsample, by rw [hcursor, hc]; rfl, _, htrace⟩
    · rw [if_neg hc] at hphase hsample
      exact absurd hsample (hstill hphase)
  · exact absurd hsample (hstill hphase)
  · exact .inl htrace

end Sys2Proof.Machine
end

section
/-!
PROOFS of the family 42_session_gate.md: the gate's state machine with its other writes (R113), racing OPENs
(R114), and the monitor of the transfers along every step (R66, R113, R177).
-/

namespace Sys2Proof.Machine

/-! The gate's state machine. -/

theorem acquire_of_free {s : State} (h : s.gate = .free) :
    acquire s = some { s with gate := .held, cursor := 0 } := by
  simp [acquire, isHeld, h, setGate, resetOnOpen]

theorem acquire_of_held {s : State} (h : s.gate = .held) : acquire s = none := by
  simp [acquire, isHeld, h]

/-- Every command moves the gate as R113 says. -/
theorem exec_gate {i : Instr} {s t : State} (h : exec i s = .next t) :
    t.gate = gateTable i s.gate := by
  rcases exec_cases i s with ⟨_, rfl, -, he⟩ | ⟨_, rfl, hg, he⟩ | ⟨_, rfl, -, he⟩ |
    ⟨_, rfl, -, he⟩ | ⟨_, rfl, he⟩ | ⟨_, rfl, he⟩ <;> rw [he] at h <;> cases h
  exacts [rfl, hg, rfl, rfl, rfl, rfl]

/-- Settles O11: the two answers of `acquire`, the registers of `pulseReset`, and `exec_gate` for the two
commands whose row of R113 keeps the gate. -/
theorem gateStateMachine : Obligations.GateStateMachine := fun s =>
  ⟨acquire_of_free, acquire_of_held, rfl, by simp,
    fun _ _ h => h.elim (fun hread => exec_gate hread) (fun hwrite => exec_gate hwrite)⟩

/-! Racing OPENs. -/

theorem completed_open_of_free {w : CmdWord} {a : Word} {s : State} (hw : decode w = .openCmd a)
    (hg : s.gate = .free) :
    completed w s = { s with
      gate := .held, cursor := 0, owed := 0, rsp := none, offered := none
      trace := s.trace ++ [.command w, .status .ok] } := by
  rw [completed_noBytes (by rw [hw]; rfl), hw]
  simp [gateTable, cursorAfter, statusTable, hg]

theorem completed_open_of_held {w : CmdWord} {a : Word} {s : State} (hw : decode w = .openCmd a)
    (hi : idle s = true) (hg : s.gate = .held) :
    completed w s = { s with
      offered := none
      trace := s.trace ++ [.command w, .status .busy] } := by
  rw [completed_error hi (by rw [hw, hg]; rfl), hw, hg]
  rfl

/-- OPENs under a held gate are all answered BUSY, and the holder's registers stay (R111). -/
theorem completedAll_opens_of_held {s : State} (as : List Word) (hi : idle s = true)
    (hg : s.gate = .held) :
    let t := completedAll (as.map fun a => encode (.openCmd a)) s
    statusesIn t.trace = statusesIn s.trace ++ List.replicate as.length .busy ∧
      t.gate = .held ∧ t.cursor = s.cursor ∧ t.phase = s.phase ∧ t.sample = s.sample := by
  induction as generalizing s with
  | nil => simp [completedAll, hg]
  | cons a as ih =>
    have hopen := completed_open_of_held (decode_encode (.openCmd a)) hi hg
    have hrest := ih (completed_idle (encode (.openCmd a)) s) (by rw [hopen]; exact hg)
    simpa [completedAll, hopen, statusesIn, List.replicate_succ] using hrest

/-- Settles O34: the first OPEN takes the gate and the others find it held. -/
theorem firstOfRacingOpensWins : Obligations.FirstOfRacingOpensWins := by
  intro a rest s hi hg
  have hopen := completed_open_of_free (decode_encode (.openCmd a)) hg
  have hrest := completedAll_opens_of_held rest (completed_idle (encode (.openCmd a)) s)
    (by rw [hopen])
  refine ⟨_, completeAll_eq _ hi, ?_⟩
  simpa [completedAll, hopen, statusesIn] using hrest

/-! The monitor. -/

theorem resetWith_monitored (c : Config) : (State.resetWith c).Monitored := rfl

theorem monitorOf_eq {s : State} {g : Gate} {r : Option Status} {n : Nat} (hgate : s.gate = g)
    (hrsp : s.rsp = r) (howed : s.owed.toNat = n) :
    monitorOf s = { gate := g, rsp := r, owed := n } := by
  rw [monitorOf, hgate, hrsp, howed]

/-- The record stays accepted when the monitor goes on from `s` to `t` over the transfers in between. -/
theorem State.Monitored.extend {s t : State} {m m' : Monitor} {later : List Event} (h : s.Monitored)
    (hs : monitorOf s = m) (ht : monitorOf t = m') (htrace : t.trace = s.trace ++ later)
    (hlater : m.run later = some m') : t.Monitored := by
  unfold State.Monitored at *
  rw [htrace, Monitor.run_append, h, hs, ht]
  exact hlater

/-- A command is accepted with none in progress; its status and bytes are then due (R177(a), (e)). -/
@[simp] theorem Monitor.next_command (g : Gate) (w : CmdWord) :
    Monitor.next { gate := g, rsp := none, owed := 0 } (.command w) = some
      { gate := gateTable (decode w) g
        rsp := some (statusTable (decode w) g)
        owed := bytesTable (decode w) g } := by
  simp [Monitor.next]

/-- The status that is due is accepted (R177(c)). -/
@[simp] theorem Monitor.next_status (g : Gate) (st : Status) (n : Nat) :
    Monitor.next { gate := g, rsp := some st, owed := n } (.status st) = some
      { gate := g, rsp := none, owed := n } := by
  simp [Monitor.next]

/-- A byte is accepted while one is due and no status is (R177(d)). -/
theorem Monitor.next_byte (g : Gate) {n : Nat} (b : Byte) (hn : 0 < n) :
    Monitor.next { gate := g, rsp := none, owed := n } (.byte b) = some
      { gate := g, rsp := none, owed := n - 1 } := by
  simp [Monitor.next, hn]

/-- Each of the five moves of the block adds transfers that the tables allow. -/
theorem BlockMove.monitored {s t : State} (h : BlockMove s t) (hs : s.Monitored) :
    t.Monitored := by
  rcases blockMove_fields h with
    ⟨-, -, -, -, hgate, howed, hrsp, -, htrace⟩ |
    ⟨st, hst, hrsp, htrace, -, -, -, -, hgate, howed, -⟩ |
    ⟨hnone, hdue, hrsp, howed, htrace, -, -, -, -, hgate, -⟩ |
    ⟨hnone, hzero, w, -, hgate, howed, -, -, -, -, hrun⟩ |
    ⟨-, -, -, hgate, howed, hrsp, htrace, -⟩
  · exact hs.extend rfl (monitorOf_eq hgate hrsp (congrArg _ howed))
      (htrace.trans (List.append_nil _).symm) rfl
  · exact hs.extend (monitorOf_eq rfl hst rfl) (monitorOf_eq hgate hrsp (congrArg _ howed)) htrace
      (by simp [Monitor.run])
  · have hpos : 0 < s.owed.toNat := by bv_omega
    have hone : t.owed.toNat = s.owed.toNat - 1 := by bv_omega
    exact hs.extend (monitorOf_eq rfl hnone rfl) (monitorOf_eq hgate hrsp hone) htrace
      (by simp [Monitor.run, Monitor.next_byte _ _ hpos])
  · have hidle := monitorOf_eq rfl hnone (congrArg BitVec.toNat hzero)
    rcases hrun with ⟨hrsp, htrace⟩ | ⟨hrsp, htrace⟩
    · exact hs.extend hidle (monitorOf_eq hgate hrsp howed) htrace (by simp [Monitor.run])
    · exact hs.extend hidle (monitorOf_eq hgate hrsp howed) htrace (by simp [Monitor.run])
  · exact hs.extend rfl (monitorOf_eq hgate hrsp (congrArg _ howed)) htrace rfl

/-- Settles O50: a step at either grain is a move of the block (`step_cases`). -/
theorem everyStepObeysTheProtocol : Obligations.EveryStepObeysTheProtocol :=
  ⟨resetWith_monitored, fun _ _ hs hstep => (step_cases hstep).monitored hs⟩

end Sys2Proof.Machine
end

section
/-!
PROOFS of the family 43_commands.md: the four commands (R121 to R125) with their status table and frame, a
READ step by step (R122), the invariant of the state, and the laws of command sequences (R126, R127).
-/

namespace Sys2Proof.Machine

/-! The invariant. -/

/-- Only a READ of the holder makes bytes owed: its status is OK and the gate stays held (R66, R113). -/
theorem held_ok_of_bytesTable_ne_zero {i : Instr} {g : Gate} (h : bytesTable i g ≠ 0) :
    gateTable i g = .held ∧ statusTable i g = .ok := by
  cases i with
  | readCmd n =>
    cases g with
    | free => exact absurd rfl h
    | held => exact ⟨rfl, rfl⟩
  | openCmd a | writeCmd a | closeCmd a => exact absurd rfl h

/-- Two clauses of the invariant speak of the bytes owed only: what they say when none is. -/
theorem State.Inv.of_none_owed {s : State} (hwf : s.config.wf = true)
    (hperiod : s.period = s.config.periodWord) (howed : s.owed = 0) : s.Inv :=
  ⟨hwf, hperiod, fun hne => absurd howed hne, fun _ _ _ => howed⟩

/-- Every move of the block keeps the invariant. -/
theorem BlockMove.inv {s t : State} (h : BlockMove s t) (hs : s.Inv) : t.Inv := by
  obtain ⟨hperiod, hconfig⟩ := h.period_config_eq
  have hwf : t.config.wf = true := by rw [hconfig, hs.config_wf]
  have hconst : t.period = t.config.periodWord := by rw [hperiod, hconfig, hs.period_config]
  rcases blockMove_fields h with
    ⟨-, -, -, -, hgate, howed, hrsp, -⟩ |
    ⟨_, -, hrsp, -, -, -, -, -, hgate, howed, -⟩ |
    ⟨-, hdue, hrsp, -, -, -, -, -, -, hgate, -⟩ |
    ⟨-, -, w, -, hgate, howed, -, -, -, -, hrun⟩ |
    ⟨-, -, -, -, howed, -⟩
  · refine ⟨hwf, hconst, ?_, ?_⟩
    · rw [howed, hgate]
      exact hs.owed_held
    · rw [hrsp, howed]
      exact hs.error_no_byte
  · refine ⟨hwf, hconst, ?_, by simp [hrsp]⟩
    rw [howed, hgate]
    exact hs.owed_held
  · exact ⟨hwf, hconst, fun _ => hgate.trans (hs.owed_held hdue), by simp [hrsp]⟩
  · by_cases hbytes : bytesTable (decode w) s.gate = 0
    · exact .of_none_owed hwf hconst (BitVec.eq_of_toNat_eq (howed.trans hbytes))
    · obtain ⟨hheld, hok⟩ := held_ok_of_bytesTable_ne_zero hbytes
      refine ⟨hwf, hconst, fun _ => hgate.trans hheld, fun st hst herr => ?_⟩
      rcases hrun with ⟨hrsp, -⟩ | ⟨hrsp, -⟩
      · rw [hrsp, hok, Option.some_inj] at hst
        exact absurd hst.symm herr
      · rw [hrsp] at hst
        cases hst
  · exact .of_none_owed hwf hconst howed

/-- Settles O49: a step at either grain is a move of the block (`step_cases`). -/
theorem everyStepKeepsTheInvariant : Obligations.EveryStepKeepsTheInvariant :=
  fun _ _ hs hstep => (step_cases hstep).inv hs

/-! The four commands. -/

theorem exec_open_of_free {s : State} (a : Word) (h : s.gate = .free) :
    exec (.openCmd a) s = .next { s with gate := .held, cursor := 0, rsp := some .ok } := by
  simp only [exec, execOpen, acquire_of_free h, respond]

theorem exec_open_of_held {s : State} (a : Word) (h : s.gate = .held) :
    exec (.openCmd a) s = .next { s with rsp := some .busy } := by
  simp only [exec, execOpen, acquire_of_held h, raise, respond]

theorem exec_read_of_held {s : State} (n : Word) (h : s.gate = .held) :
    exec (.readCmd n) s = .next { s with rsp := some .ok, owed := n } := by
  simp [exec, execRead, isHeld, h, respond, beginBytes, countOf]

theorem exec_close (a : Word) (s : State) :
    exec (.closeCmd a) s = .next { s with gate := .free, rsp := some .ok } := rfl

/-- Settles O5: the two answers of `acquire`. -/
theorem openTakesTheGateOrAnswersBusy : Obligations.OpenTakesTheGateOrAnswersBusy :=
  fun a _ => ⟨exec_open_of_free a, exec_open_of_held a⟩

/-- Settles O7: the gate test passes. -/
theorem readWhileHeldIsServed : Obligations.ReadWhileHeldIsServed :=
  fun n _ => exec_read_of_held n

/-- Settles O9: CLOSE tests nothing. -/
theorem closeFreesTheGate : Obligations.CloseFreesTheGate := exec_close

/-! What any command writes, in the terms of the tables. -/

theorem exec_rsp {i : Instr} {s t : State} (h : exec i s = .next t) :
    t.rsp = some (statusTable i s.gate) := by
  rcases exec_cases i s with ⟨_, rfl, hg, he⟩ | ⟨_, rfl, hg, he⟩ | ⟨_, rfl, hg, he⟩ |
    ⟨_, rfl, hg, he⟩ | ⟨_, rfl, he⟩ | ⟨_, rfl, he⟩ <;> rw [he] at h <;> cases h
  iterate 4 rw [hg]; rfl
  all_goals rfl

theorem cursorAfter_open_of_free {s : State} (a : Word) (h : s.gate = .free) :
    cursorAfter (.openCmd a) s = 0 := by
  simp [cursorAfter, h]

theorem cursorAfter_open_of_held {s : State} (a : Word) (h : s.gate = .held) :
    cursorAfter (.openCmd a) s = s.cursor := by
  simp [cursorAfter, h]

theorem exec_cursor {i : Instr} {s t : State} (h : exec i s = .next t) :
    t.cursor = cursorAfter i s := by
  rcases exec_cases i s with ⟨a, rfl, hg, he⟩ | ⟨a, rfl, hg, he⟩ | ⟨_, rfl, -, he⟩ |
    ⟨_, rfl, -, he⟩ | ⟨_, rfl, he⟩ | ⟨_, rfl, he⟩ <;> rw [he] at h <;> cases h
  exacts [(cursorAfter_open_of_free a hg).symm, (cursorAfter_open_of_held a hg).symm, rfl, rfl, rfl,
    rfl]

/-- The bytes owed change for a READ of the holder only. -/
theorem exec_owed_cases {i : Instr} {s t : State} (h : exec i s = .next t) :
    (∃ n, i = .readCmd n ∧ s.gate = .held ∧ t.owed = n) ∨
    (bytesTable i s.gate = 0 ∧ t.owed = s.owed) := by
  rcases exec_cases i s with ⟨_, rfl, -, he⟩ | ⟨_, rfl, -, he⟩ | ⟨n, rfl, hg, he⟩ |
    ⟨_, rfl, hg, he⟩ | ⟨_, rfl, he⟩ | ⟨_, rfl, he⟩ <;> rw [he] at h <;> cases h
  · exact .inr ⟨rfl, rfl⟩
  · exact .inr ⟨rfl, rfl⟩
  · exact .inl ⟨n, rfl, hg, rfl⟩
  · exact .inr ⟨by rw [hg]; rfl, rfl⟩
  · exact .inr ⟨rfl, rfl⟩
  · exact .inr ⟨rfl, rfl⟩

theorem exec_owed {i : Instr} {s t : State} (h : exec i s = .next t) (ho : s.owed = 0) :
    t.owed.toNat = bytesTable i s.gate := by
  rcases exec_owed_cases h with ⟨n, rfl, hg, howed⟩ | ⟨hbytes, howed⟩
  · rw [howed, hg, bytesTable]
  · rw [howed, ho, hbytes]
    rfl

/-- A command writes four fields at most (R33). -/
theorem exec_frame {i : Instr} {s t : State} (h : exec i s = .next t) :
    t = { s with cursor := t.cursor, gate := t.gate, owed := t.owed, rsp := t.rsp } := by
  rcases exec_cases i s with ⟨_, -, -, he⟩ | ⟨_, -, -, he⟩ | ⟨_, -, -, he⟩ | ⟨_, -, -, he⟩ |
    ⟨_, -, he⟩ | ⟨_, -, he⟩ <;> rw [he] at h <;> cases h <;> rfl

/-- Settles O10: every command is answered, and with what the tables say. -/
theorem statusAndBytesAreTheTable : Obligations.StatusAndBytesAreTheTable := by
  intro i s ho
  obtain ⟨t, ht⟩ := exec_next i s
  exact ⟨t, ht, exec_rsp ht, exec_owed ht ho⟩

theorem open_free_of_cursorAfter_ne {i : Instr} {s : State} (h : cursorAfter i s ≠ s.cursor) :
    (∃ a, i = .openCmd a) ∧ s.gate = .free ∧ cursorAfter i s = 0 := by
  cases i with
  | openCmd a =>
    cases hg : s.gate with
    | free => exact ⟨⟨a, rfl⟩, rfl, cursorAfter_open_of_free a hg⟩
    | held => exact absurd (cursorAfter_open_of_held a hg) h
  | readCmd n | writeCmd n | closeCmd n => exact absurd rfl h

theorem open_or_close_of_gateTable_ne {i : Instr} {g : Gate} (h : gateTable i g ≠ g) :
    ((∃ a, i = .openCmd a) ∧ statusTable i g = .ok ∧ gateTable i g = .held) ∨
    ((∃ a, i = .closeCmd a) ∧ gateTable i g = .free) := by
  cases i with
  | openCmd a =>
    cases g with
    | free => exact .inl ⟨⟨a, rfl⟩, rfl, rfl⟩
    | held => exact absurd rfl h
  | closeCmd a => exact .inr ⟨⟨a, rfl⟩, rfl⟩
  | readCmd n | writeCmd n => exact absurd rfl h

/-- Settles O12: the frame by `exec_frame`, the three conditional writes by the tables. -/
theorem commandsWriteOnlyTheirRow : Obligations.CommandsWriteOnlyTheirRow := by
  intro i s t h
  have hframe := exec_frame h
  refine ⟨?_, ?_, ?_, ?_, ?_, ?_, ?_, ?_, ?_, ?_, ?_, ?_, ?_⟩
  iterate 10 rw [hframe]
  · rw [exec_cursor h]
    exact open_free_of_cursorAfter_ne
  · rw [exec_gate h, exec_rsp h, Option.some_inj]
    exact open_or_close_of_gateTable_ne
  · intro hne
    rcases exec_owed_cases h with ⟨n, hread, hg, -⟩ | ⟨-, howed⟩
    · exact ⟨⟨n, hread⟩, hg⟩
    · exact absurd howed hne

/-! The steps of a command. -/

theorem step_of_proceed {s : State} {ts : List Turn} (h : s.schedule = .proceed :: ts) :
    step s = blockStep { s with schedule := ts } := by
  simp only [step, h]

/-- With a willing host a step is a block step, whether its schedule says so or is empty. -/
theorem step_of_willing {s : State} {ts : List Turn}
    (h : (s.schedule = [] ∧ ts = []) ∨ s.schedule = .proceed :: ts) :
    step s = blockStep { s with schedule := ts } := by
  rcases h with ⟨hs, rfl⟩ | hs
  · rw [step_of_schedule_nil hs, ← hs]
  · exact step_of_proceed hs

/-- Settles O39: the step is `commandStep`, whose accepting state is written out. -/
theorem stepRunsTheDecodedCommand : Obligations.StepRunsTheDecodedCommand := by
  intro s w ws ts hr ho hc hs
  rw [step_of_willing hs, blockStep_of_command (s := { s with schedule := ts }) hr ho hc]
  rfl

/-- A READ of the holder is `produce_bytes` once its word and status are recorded (R122). -/
theorem completed_read_eq_produceBytes {w : CmdWord} {n : Word} {s : State}
    (hw : decode w = .readCmd n) (hi : idle s = true) (hg : s.gate = .held) :
    completed w s = produceBytes n.toNat { s with
      offered := none, trace := s.trace ++ [.command w, .status .ok] } := by
  obtain ⟨hr, ho⟩ := (idle_iff s).mp hi
  rw [completed_read hw hg, produceBytes_record n.toNat s none]
  apply State.ext <;> simp [hr, ho]

/-- Settles O40: the steps of a READ are the READ run to completion (O41). -/
theorem readRunsToCompletion : Obligations.ReadRunsToCompletion := by
  intro s n ws hr ho hg hc hs
  have hbytes : bytesTable (decode (encode (.readCmd n))) s.gate = n.toNat := by
    rw [decode_encode, hg, bytesTable]
  have hi : idle { s with commands := ws } = true := (idle_iff _).mpr ⟨hr, ho⟩
  have hrun := stepsOfACommandAreTheCommand s _ ws hr ho hc hs
  rw [hbytes, complete_eq _ hi, completed_read_eq_produceBytes (decode_encode _) hi hg] at hrun
  exact hrun

/-! Sequences of commands. -/

theorem completed_phase (w : CmdWord) (s : State) :
    (completed w s).phase = s.phase + BitVec.ofNat 32
      (tickCount (cursorAfter (decode w) s).toNat (bytesTable (decode w) s.gate)) :=
  produceBytes_phase _ { s with cursor := cursorAfter (decode w) s }

theorem completed_cursor (w : CmdWord) (s : State) :
    (completed w s).cursor =
      cursorAfter (decode w) s + BitVec.ofNat 2 (bytesTable (decode w) s.gate) := by
  simp [completed]

/-- The bytes one command sends. -/
def sentBytes (w : CmdWord) (s : State) : List Byte :=
  producedBytes (bytesTable (decode w) s.gate) { s with cursor := cursorAfter (decode w) s }

theorem sentBytes_length (w : CmdWord) (s : State) :
    (sentBytes w s).length = bytesTable (decode w) s.gate :=
  producedBytes_length ..

/-- What one command adds to the record: its word, its status, then its bytes. -/
def transfers (w : CmdWord) (s : State) : List Event :=
  .command w :: .status (statusTable (decode w) s.gate) :: (sentBytes w s).map Event.byte

theorem completed_trace (w : CmdWord) (s : State) :
    (completed w s).trace = s.trace ++ transfers w s := rfl

theorem bytesIn_completed_trace (w : CmdWord) (s : State) :
    bytesIn (completed w s).trace = bytesIn s.trace ++ sentBytes w s := by
  simp [completed_trace, transfers, bytesIn]

/-- Settles O32: the pair is `reset_on_open` and its four transfers (`completed_close_open`). -/
theorem closeThenOpenIsResetOnOpen : Obligations.CloseThenOpenIsResetOnOpen := by
  intro a b s hi hg
  refine ⟨_, completeAll_eq _ hi, ?_⟩
  rw [completedAll, completedAll, completedAll,
    completed_close_open (decode_encode _) (decode_encode _) hi hg]
  exact ⟨rfl, by simp [statusesIn], by simp [bytesIn]⟩

theorem producedBytes_of_boundary {s : State} (hc : s.cursor = 0) (k : Nat) :
    producedBytes k s = (List.range k).map (closedByte s s.phase) := by
  rw [producedBytes_eq_map]
  exact List.map_congr_left fun j _ => nextByte_produceBytes_from_boundary hc j

/-- From a sample boundary four bytes are one sample, low byte first (R67, R92). -/
theorem producedBytes_four_of_boundary {s : State} (hc : s.cursor = 0) :
    producedBytes 4 s =
      [byteSelect (sampleAt s s.phase) 0, byteSelect (sampleAt s s.phase) 1,
       byteSelect (sampleAt s s.phase) 2, byteSelect (sampleAt s s.phase) 3] := by
  have hphase : s.phase + BitVec.ofNat 32 0 = s.phase := BitVec.add_zero s.phase
  rw [producedBytes_of_boundary hc]
  simp [List.range_succ, closedByte, hphase]

/-- READ 4 at a sample boundary sends one sample whole. -/
theorem completed_read_four_of_boundary {s : State} (hg : s.gate = .held) (hc : s.cursor = 0) :
    let t := completed (encode (.readCmd 4)) s
    bytesIn t.trace = bytesIn s.trace ++
      [byteSelect (sampleAt s s.phase) 0, byteSelect (sampleAt s s.phase) 1,
       byteSelect (sampleAt s s.phase) 2, byteSelect (sampleAt s s.phase) 3] ∧
    t.phase = s.phase + 1 ∧ t.cursor = 0 ∧ t.gate = .held := by
  have hbytes : bytesTable (decode (encode (.readCmd 4))) s.gate = 4 := by
    rw [decode_encode, hg]
    rfl
  have hcursor : cursorAfter (decode (encode (.readCmd 4))) s = s.cursor := by
    rw [decode_encode, cursorAfter]
  refine ⟨?_, ?_, ?_, ?_⟩
  · rw [bytesIn_completed_trace, sentBytes, hbytes, hcursor, producedBytes_four_of_boundary hc]
  · rw [completed_phase, hbytes, tickCount_four_mul _ 1]
    rfl
  · rw [completed_cursor, hbytes, hcursor, hc]
    rfl
  · rw [completed_gate, decode_encode, gateTable, hg]

/-- Settles O25: CLOSE and OPEN leave `reset_on_open` (R127(c)), and the READ is one whole sample. -/
theorem reopeningDropsTheOwedBytes : Obligations.ReopeningDropsTheOwedBytes := by
  intro a b s hi hg
  have hpair :=
    completed_close_open (decode_encode (.closeCmd a)) (decode_encode (.openCmd b)) hi hg
  obtain ⟨hbytes, hphase, hend⟩ := completed_read_four_of_boundary
    (s := completed (encode (.openCmd b)) (completed (encode (.closeCmd a)) s))
    (by rw [hpair]; exact hg) (by rw [hpair]; rfl)
  refine ⟨_, completeAll_eq _ hi, hbytes.trans ?_, hphase.trans ?_, hend⟩
  · rw [hpair]
    simp only [bytesIn_append, bytesIn, List.append_nil]
    rfl
  · rw [hpair]
    rfl

/-! An error-answered command, deleted. -/

/-- A command adds its transfers to the record and does not read it. -/
theorem completed_record (w : CmdWord) (s : State) (tr : List Event) :
    completed w { s with trace := tr } = { completed w s with trace := tr ++ transfers w s } := by
  let e : State := { s with cursor := cursorAfter (decode w) s }
  have hstate := produceBytes_record (bytesTable (decode w) s.gate) e s.offered tr
  have hbytes := producedBytes_record (bytesTable (decode w) s.gate) e s.offered tr
  have hcursor : cursorAfter (decode w) { s with trace := tr } = cursorAfter (decode w) s := rfl
  simp only [completed, transfers, sentBytes, hcursor]
  rw [hstate, hbytes]

theorem completedAll_record (ws : List CmdWord) (s : State) :
    ∃ later, (completedAll ws s).trace = s.trace ++ later ∧
      ∀ tr, completedAll ws { s with trace := tr } =
        { completedAll ws s with trace := tr ++ later } := by
  induction ws generalizing s with
  | nil => exact ⟨[], (List.append_nil _).symm, fun tr => by rw [List.append_nil]; rfl⟩
  | cons w ws ih =>
    obtain ⟨later, htrace, hrecord⟩ := ih (completed w s)
    refine ⟨transfers w s ++ later, ?_, fun tr => ?_⟩
    · rw [completedAll, htrace, completed_trace, List.append_assoc]
    · rw [completedAll, completed_record, hrecord, completedAll, List.append_assoc]

/-- Settles O33: the command leaves its two transfers only, and the sequence does not read the record. -/
theorem errorAnsweredCommandsCanBeDeleted : Obligations.ErrorAnsweredCommandsCanBeDeleted := by
  intro w ws s hi hoff herr
  obtain ⟨later, htrace, hrecord⟩ := completedAll_record ws s
  refine ⟨_, later, completeAll_eq ws hi, htrace, ?_⟩
  rw [completeAll_eq _ hi, completedAll, completed_error hi herr, ← hoff, hrecord]

/-! The count of the bytes. -/

theorem completed_length_bytes (w : CmdWord) (s : State) :
    (bytesIn (completed w s).trace).length =
      (bytesIn s.trace).length + bytesTable (decode w) s.gate := by
  rw [bytesIn_completed_trace, List.length_append, sentBytes_length]

theorem completedAll_length_bytes (ws : List CmdWord) (s : State) :
    (bytesIn (completedAll ws s).trace).length =
      (bytesIn s.trace).length + hostOffset s.gate ws := by
  induction ws generalizing s with
  | nil => rfl
  | cons w ws ih =>
    rw [completedAll, ih, completed_length_bytes, completed_gate, hostOffset, Nat.add_assoc]

/-- Settles O36: each command sends the bytes of the table, which is what the host adds. -/
theorem offsetCounterCountsTheBytes : Obligations.OffsetCounterCountsTheBytes := by
  intro ws s t hi ht
  rw [completeAll_eq ws hi] at ht
  cases ht
  exact completedAll_length_bytes ws s

/-! The count of the samples. -/

/-- `phase` counts the samples begun and `cursor` the bytes sent of the last one, and a free gate is
found at a sample boundary, so that the next OPEN drops no byte. -/
structure SamplesCounted (s : State) : Prop where
  phase_eq      : s.phase = BitVec.ofNat 32 (((bytesIn s.trace).length + 3) / 4)
  cursor_eq     : s.cursor.toNat = (bytesIn s.trace).length % 4
  free_boundary : s.gate = .free → s.cursor = 0

theorem samplesCounted_resetWith (c : Config) : SamplesCounted (State.resetWith c) :=
  ⟨by simp [State.resetWith, bytesIn], rfl, fun _ => rfl⟩

/-- `reset_on_open` writes nothing new at a sample boundary. -/
theorem cursorAfter_eq_cursor {i : Instr} {s : State} (h : s.gate = .free → s.cursor = 0) :
    cursorAfter i s = s.cursor := by
  by_contra hne
  obtain ⟨-, hfree, hzero⟩ := open_free_of_cursorAfter_ne hne
  exact hne (hzero.trans (h hfree).symm)

theorem bytesTable_of_gateTable_free {i : Instr} {g : Gate} (h : gateTable i g = .free) :
    bytesTable i g = 0 := by
  by_contra hbytes
  rw [(held_ok_of_bytesTable_ne_zero hbytes).1] at h
  cases h

/-- The samples begun by `n` more bytes after `m` from a boundary (R101). -/
theorem samples_add_tickCount (m n : Nat) :
    (m + 3) / 4 + tickCount (m % 4) n = (m + n + 3) / 4 := by
  unfold tickCount
  omega

/-- A command keeps the count, unless it is a CLOSE inside a sample. -/
theorem samplesCounted_completed {w : CmdWord} {s : State} (h : SamplesCounted s)
    (hclose : ∀ a, decode w = .closeCmd a → s.cursor = 0) : SamplesCounted (completed w s) := by
  have hkeep : cursorAfter (decode w) s = s.cursor := cursorAfter_eq_cursor h.free_boundary
  refine ⟨?_, ?_, fun hfree => ?_⟩
  · rw [completed_phase, hkeep, h.cursor_eq, h.phase_eq, BitVec.ofNat_add_ofNat,
      samples_add_tickCount, completed_length_bytes]
  · rw [completed_cursor, hkeep, completed_length_bytes, BitVec.toNat_add, h.cursor_eq,
      BitVec.toNat_ofNat, ← Nat.add_mod]
  · rw [completed_gate] at hfree
    rw [completed_cursor, hkeep, bytesTable_of_gateTable_free hfree, BitVec.add_zero]
    by_cases hsame : gateTable (decode w) s.gate = s.gate
    · exact h.free_boundary (hsame.symm.trans hfree)
    · rcases open_or_close_of_gateTable_ne hsame with ⟨-, -, hheld⟩ | ⟨⟨a, ha⟩, -⟩
      · rw [hfree] at hheld
        cases hheld
      · exact hclose a ha

theorem samplesCounted_completedAll {ws : List CmdWord} {s : State} (h : SamplesCounted s)
    (hclose : ∀ done rest w a, ws = done ++ w :: rest → decode w = .closeCmd a →
      (completedAll done s).cursor = 0) : SamplesCounted (completedAll ws s) := by
  induction ws generalizing s with
  | nil => exact h
  | cons w ws ih =>
    refine ih (samplesCounted_completed h fun a => hclose [] ws w a rfl)
      fun done rest v a hws => hclose (w :: done) rest v a ?_
    rw [hws, List.cons_append]

/-- Settles O35: every command of the sequence keeps the count (`SamplesCounted`). -/
theorem phaseCountsSamplesFromReset : Obligations.PhaseCountsSamplesFromReset := by
  intro c ws t hclose ht
  have hi : idle (State.resetWith c) = true := rfl
  rw [completeAll_eq ws hi] at ht
  cases ht
  refine (samplesCounted_completedAll (samplesCounted_resetWith c) ?_).phase_eq
  exact fun done rest w a hws hw => hclose done rest w a _ hws hw (completeAll_eq done hi)

end Sys2Proof.Machine
end

section
/-!
PROOFS of the family 60_exceptions.md: the three errors (R140 to R145) and the two modes of the gate (R149).
-/

namespace Sys2Proof.Machine

/-! The errors. -/

theorem exec_read_of_free {s : State} (n : Word) (h : s.gate = .free) :
    exec (.readCmd n) s = .next { s with rsp := some .notHeld } := by
  simp [exec, execRead, isHeld, h, raise, respond]

theorem exec_write (a : Word) (s : State) :
    exec (.writeCmd a) s = .next { s with rsp := some .unsupported } := rfl

/-- Settles O8: WRITE tests nothing. -/
theorem writeIsUnsupported : Obligations.WriteIsUnsupported := exec_write

/-- The causes of an error, one for each command that can raise one (R140, R145). -/
theorem answersError_iff {i : Instr} {g : Gate} :
    answersError i g = true ↔
      (∃ a, i = .openCmd a ∧ g = .held) ∨ (∃ n, i = .readCmd n ∧ g = .free) ∨
        ∃ a, i = .writeCmd a := by
  cases i with
  | openCmd a | readCmd a => cases g <;> simp [answersError, statusTable]
  | writeCmd a | closeCmd a => simp [answersError, statusTable]

/-- Settles O6: each cause of an error with the answer of its command. -/
theorem errorsOnlyAnswer : Obligations.ErrorsOnlyAnswer := by
  intro i s herr
  rcases answersError_iff.mp herr with ⟨a, rfl, hg⟩ | ⟨n, rfl, hg⟩ | ⟨a, rfl⟩
  · simp only [exec_open_of_held a hg, hg, statusTable]
  · simp only [exec_read_of_free n hg, hg, statusTable]
  · exact exec_write a s

/-! The modes. -/

/-- A move of the block leaves the gate, accepts a command that writes it as the table says (R113), or is a
reset. -/
theorem BlockMove.gate_cases {s t : State} (h : BlockMove s t) :
    t.gate = s.gate ∨
    (∃ w later, t.trace = s.trace ++ .command w :: later ∧
      t.gate = gateTable (decode w) s.gate ∧ t.cursor = cursorAfter (decode w) s) ∨
    (t.gate = .free ∧ t.trace = s.trace ++ [.reset]) := by
  rcases blockMove_fields h with ⟨-, -, -, -, hgate, -⟩ | ⟨_, -, -, -, -, -, -, -, hgate, -⟩ |
    ⟨-, -, -, -, -, -, -, -, -, hgate, -⟩ |
    ⟨-, -, w, hcursor, hgate, -, -, -, -, -, hrun⟩ | ⟨-, -, -, hgate, -, -, htrace, -⟩
  · exact .inl hgate
  · exact .inl hgate
  · exact .inl hgate
  · rcases hrun with ⟨-, htrace⟩ | ⟨-, htrace⟩
    · exact .inr (.inl ⟨w, _, htrace, hgate, hcursor⟩)
    · exact .inr (.inl ⟨w, _, htrace, hgate, hcursor⟩)
  · exact .inr (.inr ⟨hgate, htrace⟩)

theorem open_of_gateTable_held {i : Instr} (h : gateTable i .free = .held) :
    ∃ a, i = .openCmd a := by
  rcases open_or_close_of_gateTable_ne (by rw [h]; decide) with ⟨hopen, -⟩ | ⟨-, hfree⟩
  · exact hopen
  · rw [h] at hfree
    cases hfree

theorem close_of_gateTable_free {i : Instr} (h : gateTable i .held = .free) :
    ∃ a, i = .closeCmd a := by
  rcases open_or_close_of_gateTable_ne (by rw [h]; decide) with ⟨-, -, hheld⟩ | ⟨hclose, -⟩
  · rw [h] at hheld
    cases hheld
  · exact hclose

/-- A move from `Free` to `Held` is an OPEN that ran `reset_on_open` (R111, R149). -/
theorem BlockMove.open_of_free_to_held {s t : State} (h : BlockMove s t) (hs : s.gate = .free)
    (ht : t.gate = .held) :
    ∃ w a later, decode w = .openCmd a ∧ t.trace = s.trace ++ .command w :: later ∧
      t.cursor = 0 := by
  rcases h.gate_cases with hgate | ⟨w, later, htrace, hgate, hcursor⟩ | ⟨hfree, -⟩
  · simp [hs, ht] at hgate
  · rw [hs, ht] at hgate
    obtain ⟨a, ha⟩ := open_of_gateTable_held hgate.symm
    rw [ha, cursorAfter_open_of_free a hs] at hcursor
    exact ⟨w, a, later, ha, htrace, hcursor⟩
  · simp [ht] at hfree

/-- A move from `Held` to `Free` is a reset or a CLOSE (R112, R149). -/
theorem BlockMove.reset_or_close_of_held_to_free {s t : State} (h : BlockMove s t)
    (hs : s.gate = .held) (ht : t.gate = .free) :
    t.trace = s.trace ++ [.reset] ∨
      ∃ w a later, decode w = .closeCmd a ∧ t.trace = s.trace ++ .command w :: later := by
  rcases h.gate_cases with hgate | ⟨w, later, htrace, hgate, -⟩ | ⟨-, htrace⟩
  · simp [hs, ht] at hgate
  · rw [hs, ht] at hgate
    obtain ⟨a, ha⟩ := close_of_gateTable_free hgate.symm
    exact .inr ⟨w, a, later, ha, htrace⟩
  · exact .inl htrace

/-- Settles O47: a step at either grain is a move of the block (`step_cases`). -/
theorem gateMovesOnlyByOpenCloseReset : Obligations.GateMovesOnlyByOpenCloseReset :=
  fun _ _ hstep => ⟨(step_cases hstep).open_of_free_to_held,
    (step_cases hstep).reset_or_close_of_held_to_free⟩

end Sys2Proof.Machine
end

section
/-!
PROOFS of the family 70_reset_and_hazards.md: the signal-level binding (R170, R176 to R178) and the two
grains (decision D20), reset (R160 to R162), the host's duties (R165, R166), a block that never halts and
whose old sample no output shows (R173, R174).
-/

namespace Sys2Proof.Machine

/-! The wires, in terms of the state. -/

theorem cmdReady_iff {s : State} : cmdReady s = true ↔ s.rsp = none ∧ s.owed = 0 ∧ s.wait = 0 := by
  simp [cmdReady, idle, and_assoc]

theorem rspValid_iff {s : State} : rspValid s = true ↔ (∃ st, s.rsp = some st) ∧ s.wait = 0 := by
  simp [rspValid, Option.isSome_iff_exists]

theorem datValid_iff {s : State} : datValid s = true ↔ s.rsp = none ∧ s.owed ≠ 0 ∧ s.wait = 0 := by
  simp [datValid, and_assoc]

theorem outputs_rspStatus_eq_some {s : State} {c : BitVec 2} :
    (outputs s).rspStatus = some c ↔ rspValid s = true ∧ s.rsp.map Status.code = some c := by
  simp [outputs]

theorem outputs_dat_eq_some {s : State} {b : Byte} :
    (outputs s).dat = some b ↔ datValid s = true ∧ nextByte s = b := by
  simp [outputs]

/-- A broken handshake: the command on offer is withdrawn or changed (R176, U14). -/
theorem handshakeKept_eq_false_iff {p : Pins} {s : State} :
    handshakeKept p s = false ↔ ∃ w, s.offered = some w ∧ (p.cmdValid = false ∨ p.cmd ≠ w) := by
  cases h : s.offered with
  | none => simp [handshakeKept, h]
  | some w => cases hv : p.cmdValid <;> simp [handshakeKept, h, hv]

/-- With no command on offer there is no handshake to break. -/
theorem handshakeKept_of_no_offer {p : Pins} {s : State} (h : s.offered = none) :
    handshakeKept p s = true := by
  simp [handshakeKept, h]

/-! One equation for each kind of clock edge. -/

theorem clockEdge_of_rst {p : Pins} (s : State) (h : p.rst = true) :
    clockEdge p s = .next (drawWait (pulseReset s)) := by
  simp [clockEdge, h]

theorem clockEdge_of_broken {p : Pins} {s : State} (hrst : p.rst = false)
    (hk : handshakeKept p s = false) : clockEdge p s = .refused .brokenHandshake := by
  simp [clockEdge, hrst, hk]

theorem clockEdge_of_cmd {p : Pins} {s t : State} (hrst : p.rst = false)
    (hk : handshakeKept p s = true) (hc : cmdReady s = true) (hv : p.cmdValid = true)
    (ht : exec (decode p.cmd) (accept p.cmd s) = .next t) :
    clockEdge p s = .next (drawWait t) := by
  simp [clockEdge, hrst, hk, hc, hv, ht, onNext]

/-- A block that offers a status or a byte has its command still in progress (R177(e)). -/
theorem not_idle_of_rspValid {s : State} (h : rspValid s = true) : idle s = false := by
  obtain ⟨⟨st, hst⟩, -⟩ := rspValid_iff.mp h
  simp [idle, hst]

theorem not_idle_of_owed {s : State} (h : s.owed ≠ 0) : idle s = false :=
  Bool.eq_false_iff.mpr fun hi => h ((idle_iff s).mp hi).2

theorem not_idle_of_datValid {s : State} (h : datValid s = true) : idle s = false := by
  obtain ⟨-, howed, -⟩ := datValid_iff.mp h
  exact not_idle_of_owed howed

theorem not_cmdReady_of_not_idle {s : State} (h : idle s = false) : cmdReady s = false := by
  simp [cmdReady, h]

theorem not_rspValid_of_no_status {s : State} (h : s.rsp = none) : rspValid s = false := by
  simp [rspValid, h]

theorem clockEdge_of_rsp {p : Pins} {s : State} (hrst : p.rst = false)
    (hk : handshakeKept p s = true) (hr : rspValid s = true) (hp : p.rspReady = true) :
    clockEdge p s = .next (drawWait (takeStatus { s with offered := offerOf p })) := by
  have hr' : rspValid { s with offered := offerOf p } = true := hr
  simp [clockEdge, serveEdge, hrst, hk, not_cmdReady_of_not_idle (not_idle_of_rspValid hr), hr', hp]

theorem clockEdge_of_dat {p : Pins} {s : State} (hrst : p.rst = false)
    (hk : handshakeKept p s = true) (hd : datValid s = true) (hp : p.datReady = true) :
    clockEdge p s = .next (drawWait (serveByte { s with offered := offerOf p })) := by
  have hc := not_cmdReady_of_not_idle (not_idle_of_datValid hd)
  have hd' : datValid { s with offered := offerOf p } = true := hd
  have hr' : rspValid { s with offered := offerOf p } = false :=
    not_rspValid_of_no_status (datValid_iff.mp hd).1
  simp [clockEdge, serveEdge, hrst, hk, hc, hr', hd', hp]

theorem clockEdge_of_no_transfer {p : Pins} {s : State} (hrst : p.rst = false)
    (hk : handshakeKept p s = true) (hc : (cmdReady s && p.cmdValid) = false)
    (hr : (rspValid s && p.rspReady) = false) (hd : (datValid s && p.datReady) = false) :
    clockEdge p s = .next (waitEdge { s with offered := offerOf p }) := by
  have hr' : (rspValid { s with offered := offerOf p } && p.rspReady) = false := hr
  have hd' : (datValid { s with offered := offerOf p } && p.datReady) = false := hd
  simp [clockEdge, serveEdge, hrst, hk, hc, hr', hd']

/-- Waiting counts down to 0, where a busy block keeps the offer it made. -/
theorem waitEdge_of_waiting_or_busy {s : State} (h : s.wait ≠ 0 ∨ idle s = false) :
    waitEdge s = { s with wait := s.wait - 1 } := by
  by_cases hw : s.wait = 0
  · have hzero : s.wait - 1 = s.wait := by omega
    rw [waitEdge, if_neg (not_not.mpr hw), h.resolve_left (not_not.mpr hw), hzero]
    rfl
  · exact if_pos hw

/-- An edge at which a busy block makes no transfer. -/
theorem clockEdge_of_untaken {p : Pins} {s : State} (hrst : p.rst = false)
    (hk : handshakeKept p s = true) (hbusy : idle s = false)
    (hr : (rspValid s && p.rspReady) = false) (hd : (datValid s && p.datReady) = false) :
    clockEdge p s = .next { s with offered := offerOf p, wait := s.wait - 1 } := by
  rw [clockEdge_of_no_transfer hrst hk (by simp [not_cmdReady_of_not_idle hbusy]) hr hd,
    waitEdge_of_waiting_or_busy (s := { s with offered := offerOf p }) (.inr hbusy)]

/-- An edge without `rst` that answers a next state kept the handshake. -/
theorem handshakeKept_of_clockEdge_next {p : Pins} {s t : State} (hrst : p.rst = false)
    (h : clockEdge p s = .next t) : handshakeKept p s = true := by
  by_contra hk
  rw [clockEdge_of_broken hrst (Bool.not_eq_true _ ▸ hk)] at h
  cases h

/-! A command at its acceptance, as one equation. -/

/-- What a command writes when none is in progress, in the terms of the tables (R33, R66, R113). -/
theorem exec_eq {s : State} (i : Instr) (ho : s.owed = 0) :
    exec i s = .next { s with
      cursor := cursorAfter i s, gate := gateTable i s.gate
      owed := BitVec.ofNat 32 (bytesTable i s.gate), rsp := some (statusTable i s.gate) } := by
  obtain ⟨t, ht⟩ := exec_next i s
  have howed : BitVec.ofNat 32 (bytesTable i s.gate) = t.owed := by
    rw [← exec_owed ht ho, BitVec.ofNat_toNat, BitVec.setWidth_eq]
  rw [ht, howed, ← exec_cursor ht, ← exec_gate ht, ← exec_rsp ht, ← exec_frame ht]

/-- The first step of a command: `exec_eq` on the state that accepts it, and the status handed over. -/
theorem commandStep_eq {s : State} (w : CmdWord) (ho : s.owed = 0) :
    commandStep w s = .next { s with
      cursor := cursorAfter (decode w) s, gate := gateTable (decode w) s.gate
      owed := BitVec.ofNat 32 (bytesTable (decode w) s.gate), rsp := none, offered := none
      trace := s.trace ++ [.command w] ++ [.status (statusTable (decode w) s.gate)] } := by
  rw [commandStep, exec_eq (s := accept w s) _ ho]
  rfl

/-! The two grains. -/

/-- The command level sees neither the offer on the wires nor the counters of the latency. -/
theorem atCommandGrain_signals (s : State) (off : Option CmdWord) (w d : Nat) :
    atCommandGrain { s with offered := off, wait := w, draws := d } = atCommandGrain s := by
  simp only [atCommandGrain, takeStatus_eq]

theorem atCommandGrain_offered (s : State) (off : Option CmdWord) :
    atCommandGrain { s with offered := off } = atCommandGrain s :=
  atCommandGrain_signals s off s.wait s.draws

theorem atCommandGrain_drawWait (s : State) : atCommandGrain (drawWait s) = atCommandGrain s :=
  atCommandGrain_signals s s.offered _ _

theorem atCommandGrain_waitEdge (s : State) : atCommandGrain (waitEdge s) = atCommandGrain s := by
  rw [waitEdge_eq]
  exact atCommandGrain_signals s s.offered _ _

/-- At the command level the status of a command counts as taken from its first step on (R161). -/
theorem atCommandGrain_takeStatus (s : State) :
    atCommandGrain (takeStatus s) = atCommandGrain s := by
  simp [atCommandGrain, takeStatus_eq]

theorem atCommandGrain_of_no_status {s : State} (h : s.rsp = none) :
    atCommandGrain s = { s with wait := 0, draws := 0, offered := none } := by
  simp [atCommandGrain, takeStatus, h]

/-- A `cmd` transfer is one command step of the command level. -/
theorem blockStep_atCommandGrain_of_cmd {w : CmdWord} {s t : State} (hc : cmdReady s = true)
    (ht : exec (decode w) (accept w s) = .next t) :
    blockStep { atCommandGrain s with commands := w :: s.commands } =
      .next (atCommandGrain t) := by
  obtain ⟨hrsp, howed, -⟩ := cmdReady_iff.mp hc
  rw [exec_eq (s := accept w s) _ howed] at ht
  cases ht
  have hs := atCommandGrain_of_no_status hrsp
  rw [blockStep_of_command (by simp [hs, hrsp]) (by simp [hs, howed]) rfl,
    commandStep_eq _ (by simp [hs, howed]), hs]
  rfl

/-- A `dat` transfer is one EMIT step of the command level. -/
theorem blockStep_atCommandGrain_of_dat {s : State} (hd : datValid s = true) :
    blockStep (atCommandGrain s) = .next (atCommandGrain (serveByte s)) := by
  obtain ⟨hrsp, howed, -⟩ := datValid_iff.mp hd
  have hs := atCommandGrain_of_no_status hrsp
  rw [blockStep_of_owed (by simp [hs, hrsp]) (by simpa [hs] using howed), hs,
    atCommandGrain_of_no_status (by simp [hrsp]), serveByte_eq, emitByte_eq, serveByte_eq,
    emitByte_eq]
  rfl

/-- An edge that makes neither a `cmd` nor a `dat` transfer is none at the command level: a status was
taken, or the block waited. -/
theorem atCommandGrain_of_no_cmd_no_dat {p : Pins} {s t : State} (hrst : p.rst = false)
    (hstep : clockEdge p s = .next t) (hc : (cmdReady s && p.cmdValid) = false)
    (hd : (datValid s && p.datReady) = false) : atCommandGrain t = atCommandGrain s := by
  have hk := handshakeKept_of_clockEdge_next hrst hstep
  by_cases hr : (rspValid s && p.rspReady) = true
  · obtain ⟨hvalid, hready⟩ := Bool.and_eq_true_iff.mp hr
    rw [clockEdge_of_rsp hrst hk hvalid hready] at hstep
    cases hstep
    rw [atCommandGrain_drawWait, atCommandGrain_takeStatus, atCommandGrain_offered]
  · rw [clockEdge_of_no_transfer hrst hk hc (Bool.eq_false_iff.mpr hr) hd] at hstep
    cases hstep
    rw [atCommandGrain_waitEdge, atCommandGrain_offered]

/-- Settles O60: each kind of clock edge with the block step it is. -/
theorem signalLevelRefinesCommandLevel : Obligations.SignalLevelRefinesCommandLevel := by
  intro p s t hrst hstep
  have hk := handshakeKept_of_clockEdge_next hrst hstep
  refine ⟨fun hc hv => ?_, fun hd hp => ?_, fun hnocmd hnodat => ?_⟩
  · obtain ⟨u, hu⟩ := exec_next (decode p.cmd) (accept p.cmd s)
    rw [clockEdge_of_cmd hrst hk hc hv hu] at hstep
    cases hstep
    rw [atCommandGrain_drawWait, blockStep_atCommandGrain_of_cmd hc hu]
  · rw [clockEdge_of_dat hrst hk hd hp] at hstep
    cases hstep
    rw [atCommandGrain_drawWait, ← atCommandGrain_offered s (offerOf p)]
    exact blockStep_atCommandGrain_of_dat hd
  · exact atCommandGrain_of_no_cmd_no_dat hrst hstep (by simpa using hnocmd) (by simpa using hnodat)

/-! Reset. -/

theorem step_of_reset {s : State} {ts : List Turn} (h : s.schedule = .reset :: ts) :
    step s = .next (pulseReset { s with schedule := ts }) := by
  simp only [step, h]

/-- Settles O42: the turn is `pulseReset`, written out. -/
theorem resetAbortsWhateverRuns : Obligations.ResetAbortsWhateverRuns :=
  fun _ _ hturn => step_of_reset hturn

/-- Settles O54: the edge is `pulseReset`, after which there is nothing to offer on `rsp` and `dat`. -/
theorem resetEdgeOverrides : Obligations.ResetEdgeOverrides := by
  intro p s hrst
  exact ⟨_, clockEdge_of_rst s hrst, by simp [outputs, rspValid, datValid]⟩

/-- The closed form from phase 0: byte `j` is byte `j mod 4` of sample `j div 4` (R92, R99). -/
theorem closedByte_zero (s : State) (j : Nat) :
    closedByte s 0 j = byteSelect (sine s.config.sine (BitVec.ofNat 32 (j / 4)) s.period)
      (BitVec.ofNat 2 (j % 4)) := by
  rw [closedByte, sampleAt, show (0 : Word) + BitVec.ofNat 32 (j / 4) = _ from BitVec.zero_add _]

/-- Settles O37: OPEN leaves phase 0 at a sample boundary, where READ has its closed form (R99). -/
theorem firstOutputAfterReset : Obligations.FirstOutputAfterReset := by
  intro c a n
  have hopen := completed_open_of_free (s := State.resetWith c) (decode_encode (.openCmd a)) rfl
  refine ⟨_, completeAll_eq _ rfl, ?_⟩
  rw [completedAll, completedAll, completedAll, hopen,
    completed_read (decode_encode (.readCmd n)) rfl, producedBytes_of_boundary rfl]
  simp only [statusesIn_append, bytesIn_append, statusesIn, bytesIn, statusesIn_map_byte,
    bytesIn_map_byte]
  exact ⟨rfl, List.map_congr_left fun j _ => closedByte_zero _ j⟩

/-! The duties of the host. -/

/-- A caller holds the session only while the gate is held (R17). -/
def HoldsOnlyHeld (holder : Option Nat) (g : Gate) : Prop := holder ≠ none → g = .held

theorem HoldsOnlyHeld.after {holder : Option Nat} {g : Gate} (c : Call)
    (h : HoldsOnlyHeld holder g) :
    HoldsOnlyHeld (holderAfter holder g c) (gateTable c.cmd g) := by
  obtain ⟨caller, cmd⟩ := c
  cases cmd with
  | openCmd a => exact fun _ => rfl
  | closeCmd a => exact fun hsome => absurd rfl hsome
  | readCmd n | writeCmd n => exact h

/-- A caller that does its duty finds the gate held when it sends READ (R165). -/
theorem statusTable_ne_notHeld_of_dutiful {holder : Option Nat} {g : Gate} {c : Call}
    (h : HoldsOnlyHeld holder g) (hduty : dutiful holder c = true) :
    statusTable c.cmd g ≠ .notHeld := by
  obtain ⟨caller, cmd⟩ := c
  cases cmd with
  | readCmd n =>
    have hholder : holder = some caller := by simpa [dutiful] using hduty
    rw [h (by simp [hholder])]
    simp [statusTable]
  | openCmd a => cases g <;> simp [statusTable]
  | writeCmd a | closeCmd a => simp [statusTable]

theorem notHeld_mem_transfers_iff (w : CmdWord) (s : State) :
    .status .notHeld ∈ transfers w s ↔ statusTable (decode w) s.gate = .notHeld := by
  simp [transfers, eq_comm]

theorem notHeld_not_mem_of_disciplined {holder : Option Nat} {calls : List Call} {s : State}
    (h : HoldsOnlyHeld holder s.gate) (hd : disciplined holder s.gate calls = true) :
    ∃ later, (completedAll (calls.map fun c => encode c.cmd) s).trace = s.trace ++ later ∧
      .status .notHeld ∉ later := by
  induction calls generalizing holder s with
  | nil => exact ⟨[], (List.append_nil _).symm, List.not_mem_nil⟩
  | cons c calls ih =>
    obtain ⟨hduty, hrest⟩ := Bool.and_eq_true_iff.mp hd
    have hgate : (completed (encode c.cmd) s).gate = gateTable c.cmd s.gate := by
      rw [completed_gate, decode_encode]
    rw [← hgate] at hrest
    obtain ⟨later, htrace, hnone⟩ := ih (hgate ▸ h.after c) hrest
    refine ⟨transfers (encode c.cmd) s ++ later, ?_, ?_⟩
    · rw [List.map_cons, completedAll, htrace, completed_trace, List.append_assoc]
    · rw [List.mem_append, notHeld_mem_transfers_iff, decode_encode]
      exact not_or.mpr ⟨statusTable_ne_notHeld_of_dutiful h hduty, hnone⟩

/-- Settles O38: along the calls a caller holds the session only while the gate is held. -/
theorem dutifulHostNeverSeesNotHeld : Obligations.DutifulHostNeverSeesNotHeld := by
  intro calls s t hi hg hd ht
  rw [completeAll_eq _ hi] at ht
  cases ht
  rw [← hg] at hd
  exact notHeld_not_mem_of_disciplined (fun hsome => absurd rfl hsome) hd

/-! The block never halts. -/

theorem step_of_edge {s : State} {p : Pins} {ts : List Turn} (h : s.schedule = .edge p :: ts) :
    step s = clockEdge p { s with schedule := ts } := by
  simp only [step, h]

theorem blockStep_of_status {s : State} {st : Status} (h : s.rsp = some st) :
    blockStep s = .next (takeStatus s) := by
  simp [blockStep, h]

/-- At the command level every step answers a next state (R173). -/
theorem blockStep_next (s : State) : ∃ t, blockStep s = .next t := by
  rcases blockStep_cases s with ⟨_, -, h⟩ | ⟨-, -, h⟩ | ⟨-, -, -, h⟩ | ⟨-, -, w, ws, -, h⟩
  · exact ⟨_, h⟩
  · exact ⟨_, h⟩
  · exact ⟨_, h⟩
  · obtain ⟨t, -, ht⟩ := commandStep_next w { s with commands := ws }
    exact ⟨_, h.trans ht⟩

/-- A clock edge stops only where the handshake is broken. -/
theorem clockEdge_next_or_broken (p : Pins) (s : State) :
    (∃ t, clockEdge p s = .next t) ∨ (p.rst = false ∧ handshakeKept p s = false) := by
  rcases clockEdge_cases p s with ⟨-, h⟩ | ⟨hrst, hk, -⟩ | ⟨-, -, -, -, t, -, h⟩ |
    ⟨-, -, -, -, h⟩ | ⟨-, -, -, -, h⟩ | ⟨-, -, -, -, -, h⟩
  case inr.inl => exact .inr ⟨hrst, hk⟩
  all_goals exact .inl ⟨_, h⟩

theorem step_of_broken {s : State} {p : Pins} {ts : List Turn} (hs : s.schedule = .edge p :: ts)
    (hrst : p.rst = false) (hk : handshakeKept p s = false) :
    step s = .refused .brokenHandshake := by
  rw [step_of_edge hs, clockEdge_of_broken (s := { s with schedule := ts }) hrst hk]

/-- Settles O52: by whose turn it is; only a clock edge can stop. -/
theorem onlyABrokenHandshakeStops : Obligations.OnlyABrokenHandshakeStops := by
  refine ⟨fun s => ?_, fun s p ts w hs hrst hoff hbroken =>
    step_of_broken hs hrst (handshakeKept_eq_false_iff.mpr ⟨w, hoff, hbroken⟩)⟩
  cases hs : s.schedule with
  | nil => exact .inl (step_of_schedule_nil hs ▸ blockStep_next s)
  | cons turn ts =>
    cases turn with
    | proceed => exact .inl (step_of_proceed hs ▸ blockStep_next _)
    | stall => exact .inl ⟨_, step_of_stall hs⟩
    | reset => exact .inl ⟨_, step_of_reset hs⟩
    | edge p =>
      rcases clockEdge_next_or_broken p { s with schedule := ts } with hnext | ⟨hrst, hk⟩
      · exact .inl (step_of_edge hs ▸ hnext)
      · obtain ⟨w, hoff, hbroken⟩ := handshakeKept_eq_false_iff.mp hk
        exact .inr ⟨step_of_broken hs hrst hk, p, ts, w, rfl, hrst, hoff, hbroken⟩

/-! The stored sample at a sample boundary. -/

/-- The state with another stored sample. -/
def State.withSample (v : Word) (s : State) : State := { s with sample := v }

/-- `t` is `s`, or differs from it in a stored sample that no byte will show. -/
def SameButOldSample (s t : State) : Prop := t = s ∨ (s.cursor = 0 ∧ ∃ v, t = s.withSample v)

theorem SameButOldSample.exists_sample {s t : State} (h : SameButOldSample s t) :
    ∃ v, t = { s with sample := v } := by
  rcases h with rfl | ⟨-, v, rfl⟩
  · exact ⟨t.sample, rfl⟩
  · exact ⟨v, rfl⟩

/-- Two answers that are next states which agree but for an old sample, or the same refusal. -/
inductive SameAnswer : Answer → Answer → Prop
  | next {s t : State} (h : SameButOldSample s t) : SameAnswer (.next s) (.next t)
  | refused (r : Refusal) : SameAnswer (.refused r) (.refused r)

theorem SameAnswer.refl (a : Answer) : SameAnswer a a := by
  cases a with
  | next s => exact .next (.inl rfl)
  | fault r => nomatch r
  | refused r => exact .refused r

theorem SameAnswer.next_left {s : State} {b : Answer} (h : SameAnswer (.next s) b) :
    ∃ v, b = .next { s with sample := v } := by
  cases h with
  | next hsame =>
    obtain ⟨v, rfl⟩ := hsame.exists_sample
    exact ⟨v, rfl⟩

theorem SameAnswer.refused_left {r : Refusal} {b : Answer} (h : SameAnswer (.refused r) b) :
    b = .refused r := by
  cases h
  rfl

/-- At a sample boundary EMIT overwrites the stored sample unread (R90, R94). -/
theorem serveByte_withSample {s : State} (hc : s.cursor = 0) (v : Word) :
    serveByte (s.withSample v) = serveByte s := by
  rw [serveByte_eq, serveByte_eq, emitByte_of_boundary (s := s.withSample v) hc,
    emitByte_of_boundary hc]
  rfl

theorem takeStatus_withSample (s : State) (v : Word) :
    takeStatus (s.withSample v) = (takeStatus s).withSample v := by
  rw [takeStatus_eq, takeStatus_eq]
  rfl

theorem waitEdge_withSample (s : State) (v : Word) :
    waitEdge (s.withSample v) = (waitEdge s).withSample v := by
  have hwait : (s.withSample v).wait = s.wait := rfl
  have hidle : idle (s.withSample v) = idle s := rfl
  unfold waitEdge
  rw [hwait, hidle]
  split
  · rfl
  · split
    · rfl
    · rfl

/-- No command moves the cursor away from a sample boundary. -/
theorem cursorAfter_of_boundary {s : State} (i : Instr) (hc : s.cursor = 0) :
    cursorAfter i s = 0 :=
  (cursorAfter_eq_cursor fun _ => hc).trans hc

theorem commandStep_withSample {s : State} (w : CmdWord) (ho : s.owed = 0) (hc : s.cursor = 0)
    (v : Word) : SameAnswer (commandStep w s) (commandStep w (s.withSample v)) := by
  rw [commandStep_eq w ho, commandStep_eq (s := s.withSample v) w ho]
  exact .next (.inr ⟨cursorAfter_of_boundary _ hc, v, rfl⟩)

theorem blockStep_withSample {s : State} (hc : s.cursor = 0) (v : Word) :
    SameAnswer (blockStep s) (blockStep (s.withSample v)) := by
  rcases blockStep_cases s with ⟨st, hst, h⟩ | ⟨hrsp, howed, h⟩ | ⟨hrsp, howed, hnil, h⟩ |
    ⟨hrsp, howed, w, ws, hcons, h⟩
  · rw [h, blockStep_of_status (s := s.withSample v) hst, takeStatus_withSample]
    exact .next (.inr ⟨by simp [hc], v, rfl⟩)
  · rw [h, blockStep_of_owed (s := s.withSample v) hrsp howed, serveByte_withSample hc]
    exact .refl _
  · rw [h, blockStep_of_no_command (s := s.withSample v) hrsp howed hnil]
    exact .next (.inr ⟨hc, v, rfl⟩)
  · rw [h, blockStep_of_command (s := s.withSample v) hrsp howed hcons]
    exact commandStep_withSample (s := { s with commands := ws }) w howed hc v

theorem clockEdge_withSample {s : State} (p : Pins) (hc : s.cursor = 0) (v : Word) :
    SameAnswer (clockEdge p s) (clockEdge p (s.withSample v)) := by
  rcases clockEdge_cases p s with ⟨hrst, h⟩ | ⟨hrst, hk, h⟩ | ⟨hrst, hk, hcmd, hv, t, ht, h⟩ |
    ⟨hrst, hk, hr, hp, h⟩ | ⟨hrst, hk, hd, hp, h⟩ | ⟨hrst, hk, hcmd, hr, hd, h⟩ <;> rw [h]
  · rw [clockEdge_of_rst _ hrst]
    exact .refl _
  · rw [clockEdge_of_broken (s := s.withSample v) hrst hk]
    exact .refl _
  · obtain ⟨-, howed, -⟩ := cmdReady_iff.mp hcmd
    rw [exec_eq (s := accept p.cmd s) _ howed] at ht
    cases ht
    rw [clockEdge_of_cmd (s := s.withSample v) hrst hk hcmd hv
      (exec_eq (s := accept p.cmd (s.withSample v)) _ howed)]
    exact .next (.inr ⟨cursorAfter_of_boundary _ hc, v, rfl⟩)
  · have htake := takeStatus_withSample { s with offered := offerOf p } v
    rw [clockEdge_of_rsp (s := s.withSample v) hrst hk hr hp]
    exact .next (.inr ⟨by simp [hc], v, congrArg drawWait htake⟩)
  · have hserve := serveByte_withSample (s := { s with offered := offerOf p }) hc v
    rw [clockEdge_of_dat (s := s.withSample v) hrst hk hd hp, ← hserve]
    exact .refl _
  · have hwait := waitEdge_withSample { s with offered := offerOf p } v
    rw [clockEdge_of_no_transfer (s := s.withSample v) hrst hk hcmd hr hd]
    exact .next (.inr ⟨by rw [waitEdge_eq]; exact hc, v, hwait⟩)

theorem step_withSample {s : State} (hc : s.cursor = 0) (v : Word) :
    SameAnswer (step s) (step (s.withSample v)) := by
  cases hs : s.schedule with
  | nil =>
    rw [step_of_schedule_nil hs, step_of_schedule_nil (s := s.withSample v) hs]
    exact blockStep_withSample hc v
  | cons turn ts =>
    cases turn with
    | proceed =>
      rw [step_of_proceed hs, step_of_proceed (s := s.withSample v) hs]
      exact blockStep_withSample (s := { s with schedule := ts }) hc v
    | stall =>
      rw [step_of_stall hs, step_of_stall (s := s.withSample v) hs]
      exact .next (.inr ⟨hc, v, rfl⟩)
    | reset =>
      rw [step_of_reset hs, step_of_reset (s := s.withSample v) hs]
      exact .refl _
    | edge p =>
      rw [step_of_edge hs, step_of_edge (s := s.withSample v) hs]
      exact clockEdge_withSample (s := { s with schedule := ts }) p hc v

theorem step_sameAnswer {s t : State} (h : SameButOldSample s t) :
    SameAnswer (step s) (step t) := by
  rcases h with rfl | ⟨hc, v, rfl⟩
  · exact .refl _
  · exact step_withSample hc v

theorem run_sameAnswer (k : Nat) {s t : State} (h : SameButOldSample s t) :
    SameAnswer (Host.Core.run Sys2Proof.core k s) (Host.Core.run Sys2Proof.core k t) := by
  induction k generalizing s t with
  | zero => exact .next h
  | succ k ih =>
    have hstep := step_sameAnswer h
    generalize hs : step s = a, ht : step t = b at hstep
    cases hstep with
    | next hnext =>
      rw [run_next k hs, run_next k ht]
      exact ih hnext
    | refused r =>
      rw [run_refused k hs, run_refused k ht]
      exact .refused r

/-- Settles O51: each step keeps the two runs alike (`step_sameAnswer`). -/
theorem oldSampleIsUnobservable : Obligations.OldSampleIsUnobservable := by
  intro k s v hc
  have hrun := run_sameAnswer k (t := s.withSample v) (.inr ⟨hc, v, rfl⟩)
  exact ⟨fun t ht => (ht ▸ hrun).next_left, fun r hr => (hr ▸ hrun).refused_left⟩

/-! The transfers at the signal level. -/

/-- Settles O55: the edge is `exec` on the accepting state, and the status on offer shuts `cmd_ready`. -/
theorem acceptanceRunsTheCommand : Obligations.AcceptanceRunsTheCommand := by
  intro p s hrst hc hv hk
  obtain ⟨t, ht⟩ := exec_next (decode p.cmd) (accept p.cmd s)
  have hrsp : t.rsp = some (statusTable (decode p.cmd) s.gate) := by
    simp [exec_rsp ht]
  have hdraws : t.draws = s.draws := by
    rw [exec_frame ht]
    rfl
  refine ⟨t, drawWait t, ht, clockEdge_of_cmd hrst hk hc hv ht, ?_, hrsp, ?_⟩
  · rw [← hdraws]
    rfl
  · exact not_cmdReady_of_not_idle (by simp [idle, hrsp])

/-- Settles O56: the edge is `serveByte`, written out. -/
theorem dataTransferIsOneEmit : Obligations.DataTransferIsOneEmit := by
  intro p s b hrst hk hdat hp
  obtain ⟨hd, rfl⟩ := outputs_dat_eq_some.mp hdat
  obtain ⟨hrsp, -⟩ := datValid_iff.mp hd
  refine ⟨hrsp, _, clockEdge_of_dat hrst hk hd hp, ?_, ?_⟩
  · simp only [drawWait_fields, serveByte_fields]
    rfl
  · rw [serveByte_eq, emitByte_eq, emitByte_eq]
    rfl

/-- An edge that does not take the offer of a busy block leaves the wires as they are. -/
theorem outputs_of_untaken {p : Pins} {s t : State} (hrst : p.rst = false)
    (hstep : clockEdge p s = .next t) (hbusy : idle s = false) (hw : s.wait = 0)
    (hr : (rspValid s && p.rspReady) = false) (hd : (datValid s && p.datReady) = false) :
    outputs t = outputs s := by
  have hk := handshakeKept_of_clockEdge_next hrst hstep
  have hzero : s.wait - 1 = s.wait := by omega
  rw [clockEdge_of_untaken hrst hk hbusy hr hd, hzero] at hstep
  cases hstep
  rfl

/-- Settles O57: a busy block keeps what it offers (`outputs_of_untaken`). -/
theorem validOutputsStayUntilTaken : Obligations.ValidOutputsStayUntilTaken := by
  intro p s t hrst hstep
  refine ⟨fun c hrsp hp => ?_, fun b hdat hp => ?_⟩
  · obtain ⟨hr, -⟩ := outputs_rspStatus_eq_some.mp hrsp
    obtain ⟨⟨st, hst⟩, hw⟩ := rspValid_iff.mp hr
    have hd : datValid s = false := by simp [datValid, hst]
    rw [outputs_of_untaken hrst hstep (not_idle_of_rspValid hr) hw (by simp [hp]) (by simp [hd])]
    exact hrsp
  · obtain ⟨hd, -⟩ := outputs_dat_eq_some.mp hdat
    obtain ⟨hnone, -, hw⟩ := datValid_iff.mp hd
    have hr : rspValid s = false := not_rspValid_of_no_status hnone
    rw [outputs_of_untaken hrst hstep (not_idle_of_datValid hd) hw (by simp [hr]) (by simp [hp])]
    exact hdat

/-! Edges in a row. -/

theorem clockEdges_cons_of_next {p : Pins} {ps : List Pins} {s u : State}
    (h : clockEdge p s = .next u) : clockEdges (p :: ps) s = clockEdges ps u := by
  simp only [clockEdges, h]

theorem clockEdges_cons_next {p : Pins} {ps : List Pins} {s t : State}
    (h : clockEdges (p :: ps) s = .next t) :
    ∃ u, clockEdge p s = .next u ∧ clockEdges ps u = .next t := by
  cases hedge : clockEdge p s with
  | next u => exact ⟨u, rfl, by rw [← clockEdges_cons_of_next hedge, h]⟩
  | fault r => nomatch r
  | refused r => simp [clockEdges, hedge] at h

/-- An owed byte that is not taken stalls the block, edge after edge (R170). -/
theorem clockEdges_of_untaken {ps : List Pins} {s t : State} (hrsp : s.rsp = none)
    (howed : s.owed ≠ 0) (hps : ∀ p ∈ ps, p.rst = false ∧ p.datReady = false)
    (h : clockEdges ps s = .next t) : t = { s with offered := t.offered, wait := t.wait } := by
  induction ps generalizing s with
  | nil =>
    cases h
    rfl
  | cons p ps ih =>
    obtain ⟨⟨hrst, hp⟩, hrest⟩ := List.forall_mem_cons.mp hps
    obtain ⟨u, hedge, hedges⟩ := clockEdges_cons_next h
    have hk := handshakeKept_of_clockEdge_next hrst hedge
    rw [clockEdge_of_untaken hrst hk (not_idle_of_owed howed)
      (by simp [not_rspValid_of_no_status hrsp]) (by simp [hp])] at hedge
    cases hedge
    exact ih (s := { s with offered := offerOf p, wait := s.wait - 1 }) hrsp howed hrest hedges

/-- Settles O58: the block stands still, with bytes owed that keep `cmd_ready` at 0. -/
theorem untakenByteStallsTheBlock : Obligations.UntakenByteStallsTheBlock := by
  intro ps s t hrsp howed hps h
  have hstall := clockEdges_of_untaken hrsp howed hps h
  have howed' : t.owed ≠ 0 := by
    rw [hstall]
    exact howed
  exact ⟨hstall, not_cmdReady_of_not_idle (not_idle_of_owed howed')⟩

/-! A willing host. -/

/-- How many offers the command in progress has still to make. -/
def offersLeft (s : State) : Nat := s.rsp.toList.length + s.owed.toNat

/-- While the block waits a draining edge takes one off the latency. -/
theorem drainEdge_of_waiting {s : State} (hoff : s.offered = none) (hw : s.wait ≠ 0) :
    clockEdge drainPins s = .next { s with offered := none, wait := s.wait - 1 } := by
  have hr : rspValid s = false := by simp [rspValid, hw]
  have hd : datValid s = false := by simp [datValid, hw]
  have hoffer : offerOf drainPins = none := rfl
  rw [clockEdge_of_no_transfer rfl (handshakeKept_of_no_offer hoff) (by simp [drainPins])
    (by simp [hr]) (by simp [hd]), hoffer,
    waitEdge_of_waiting_or_busy (s := { s with offered := none }) (.inl hw)]

/-- Each edge takes an offer or waits for one, until none is left and `cmd_ready` is 1. -/
theorem drainEdge_progress {s : State} (hoff : s.offered = none) :
    cmdReady s = true ∨ ∃ u, clockEdge drainPins s = .next u ∧ u.offered = none ∧
      (offersLeft u < offersLeft s ∨ (offersLeft u = offersLeft s ∧ u.wait < s.wait)) := by
  have hk : handshakeKept drainPins s = true := handshakeKept_of_no_offer hoff
  by_cases hw : s.wait = 0
  · cases hrsp : s.rsp with
    | some st =>
      have hr : rspValid s = true := rspValid_iff.mpr ⟨⟨st, hrsp⟩, hw⟩
      refine .inr ⟨_, clockEdge_of_rsp rfl hk hr rfl, ?_, .inl ?_⟩
      · simp [offerOf, drainPins]
      · simp [offersLeft, hrsp]
    | none =>
      by_cases howed : s.owed = 0
      · exact .inl (cmdReady_iff.mpr ⟨hrsp, howed, hw⟩)
      · have hd : datValid s = true := datValid_iff.mpr ⟨hrsp, howed, hw⟩
        refine .inr ⟨_, clockEdge_of_dat rfl hk hd rfl, ?_, .inl ?_⟩
        · simp [offerOf, drainPins]
        · have hless : (s.owed - 1).toNat < s.owed.toNat := by bv_omega
          simpa [offersLeft, hrsp] using hless
  · exact .inr ⟨_, drainEdge_of_waiting hoff hw, rfl, .inr ⟨rfl, Nat.sub_one_lt hw⟩⟩

/-- The offers left and the latency before the next one fall lexicographically. -/
theorem cmdReady_after_drainEdges (s : State) (hoff : s.offered = none) :
    ∃ k t, clockEdges (List.replicate k drainPins) s = .next t ∧ cmdReady t = true := by
  rcases drainEdge_progress hoff with hready | ⟨u, hedge, hu, hless⟩
  · exact ⟨0, s, rfl, hready⟩
  · obtain ⟨k, t, hedges, hready⟩ := cmdReady_after_drainEdges u hu
    refine ⟨k + 1, t, ?_, hready⟩
    rw [List.replicate_succ, clockEdges_cons_of_next hedge, hedges]
termination_by (offersLeft s, s.wait)
decreasing_by
  exact Prod.lex_def.mpr hless

/-- Settles O59: the number of edges is that of `cmdReady_after_drainEdges`. -/
theorem willingHostSeesReadyAgain : Obligations.WillingHostSeesReadyAgain :=
  cmdReady_after_drainEdges

end Sys2Proof.Machine
end

section
/-!
PROOFS of the statements left: the four rows of the decoder on written words (R61), reset values and the
invariant at reset (R29), the stream (R41), the wrap of the index (R103), and the builds of SINE (R84, R87).
-/

namespace Sys2Proof.Machine

/-- Settles O3: the words are closed terms of the decoder. -/
theorem spelledOutWordsDecode : Obligations.SpelledOutWordsDecode := by
  unfold Obligations.SpelledOutWordsDecode
  decide

/-- Settles O43: the registers are those written in `State.resetWith`. -/
theorem resetValues : Obligations.ResetValues :=
  ⟨fun _ => ⟨rfl, rfl, rfl, rfl, rfl⟩, rfl, by decide⟩

/-- A reset block owes no byte and has its `period` from its build. -/
theorem inv_resetWith {c : Config} (h : c.wf = true) : (State.resetWith c).Inv :=
  .of_none_owed h rfl rfl

/-- Settles O48: the default configuration is one of the legal ones. -/
theorem invariantHoldsAtReset : Obligations.InvariantHoldsAtReset :=
  ⟨inv_resetWith (by decide), fun _ => inv_resetWith⟩

/-! The stream. -/

theorem sinceReset_append (seen a b : List Event) :
    sinceReset seen (a ++ b) = sinceReset (sinceReset seen a) b := by
  induction a generalizing seen with
  | nil => rfl
  | cons e es ih => cases e <;> exact ih _

/-- Bytes are no reset mark: all of them stay in view. -/
theorem sinceReset_map_byte (seen : List Event) (bs : List Byte) :
    sinceReset seen (bs.map Event.byte) = seen ++ bs.map Event.byte := by
  induction bs generalizing seen with
  | nil => exact (List.append_nil seen).symm
  | cons b bs ih => rw [List.map_cons, sinceReset, ih, List.append_assoc, List.singleton_append]

theorem stream_of_reset {s t : State} (h : t.trace = s.trace ++ [.reset]) : stream t = [] := by
  rw [stream, h, sinceReset_append]
  rfl

theorem stream_of_bytes {s t : State} {bs : List Byte}
    (h : t.trace = s.trace ++ bs.map Event.byte) : stream t = stream s ++ bs := by
  rw [stream, h, sinceReset_append, sinceReset_map_byte, bytesIn_append, bytesIn_map_byte, stream]

/-- Settles O24: a reset adds its mark to the record, `emit` its byte, and the run its `producedBytes`. -/
theorem streamIsTheBytesSinceReset : Obligations.StreamIsTheBytesSinceReset := fun s =>
  ⟨stream_of_reset (s := s) rfl, fun b => stream_of_bytes (s := s) (bs := [b]) rfl, fun n =>
    ⟨producedBytes n s, producedBytes_length n s, stream_of_bytes (produceBytes_trace n s)⟩⟩

/-! The index at the wrap of `phase`. -/

@[simp] theorem sineIndex_zero (n : Word) : sineIndex 0 n = 0 := Nat.zero_mod _

/-- One index after the last phase comes index 0 exactly when the period divides `2^32` (R103). -/
theorem sineIndex_last_succ_mod_iff (n : Word) :
    (sineIndex 0xFFFFFFFF#32 n + 1) % n.toNat = sineIndex 0 n ↔ n.toNat ∣ 2 ^ 32 := by
  rw [sineIndex_zero, sineIndex, Nat.mod_add_mod, Nat.dvd_iff_mod_eq_zero]
  rfl

/-- A word that is a power of two is a lower power than `2^32`. -/
theorem dvd_two_pow_width_iff (n : Word) : n.toNat ∣ 2 ^ 32 ↔ ∃ k, n.toNat = 2 ^ k := by
  constructor
  · intro h
    obtain ⟨k, -, hk⟩ := (Nat.dvd_prime_pow Nat.prime_two).mp h
    exact ⟨k, hk⟩
  · rintro ⟨k, hk⟩
    have hlt : 2 ^ k < 2 ^ 32 := hk ▸ n.isLt
    rw [hk]
    exact Nat.pow_dvd_pow 2 ((Nat.pow_lt_pow_iff_right (by decide)).mp hlt).le

/-- Settles O23: the figures for 436 by evaluation, the two criteria for every period. -/
theorem wrapJumpsUnlessPeriodIsPowerOfTwo : Obligations.WrapJumpsUnlessPeriodIsPowerOfTwo :=
  ⟨by decide, by decide, by decide, fun n _ =>
    ⟨sineIndex_last_succ_mod_iff n, dvd_two_pow_width_iff n⟩⟩

/-! Table builds of SINE. -/

theorem sineIndex_lt (p : Word) {n : Word} (hn : n ≠ 0) : sineIndex p n < n.toNat :=
  Nat.mod_lt _ (by bv_omega)

theorem ofNat_sineIndex (p n : Word) : BitVec.ofNat 32 (sineIndex p n) = p % n := by
  rw [sineIndex, ← BitVec.toNat_umod, BitVec.ofNat_toNat, BitVec.setWidth_eq]

/-- Entry `i` of a table made with `f` is `f i`, whatever stands beyond its end. -/
theorem getD_map_range {α : Type} (f : Nat → α) (d : α) {i n : Nat} (h : i < n) :
    ((List.range n).map f).getD i d = f i := by
  simp [h]

/-- The build that holds one period of `f` (R84). -/
def tableOf (n : Word) (f : Word → Int) : SineFn :=
  .table ((List.range n.toNat).map fun i => bits32 (f (BitVec.ofNat 32 i)))

theorem tableOf_fits (n : Word) (f : Word → Int) : (tableOf n f).fits n.toNat = true := by
  simp [tableOf, SineFn.fits]

theorem sine_tableOf {n : Word} (f : Word → Int) (p : Word) (hn : n ≠ 0) :
    sine (tableOf n f) p n = bits32 (f (p % n)) := by
  rw [tableOf, sine, getD_map_range _ _ (sineIndex_lt p hn), ofNat_sineIndex]

/-- Settles O27: the build is the table of one period of `f`. -/
theorem everyAdmittedSineIsSomeBuild : Obligations.EveryAdmittedSineIsSomeBuild := by
  intro n f hn hrange hperiodic
  refine ⟨tableOf n f, tableOf_fits n f, fun p => ?_⟩
  obtain ⟨hlo, hhi⟩ := hrange (p % n)
  rw [sine_tableOf f p hn, signed32_bits32 hlo hhi, ← hperiodic p]

/-! The read-only memories of R87. -/

/-- Eight signed bits hold every value of `SINE_REF` (R86(b)). -/
theorem toInt_ofInt_sineRef (i : Nat) : (BitVec.ofInt 8 (sineRef i 436)).toInt = sineRef i 436 := by
  obtain ⟨hlo, hhi, -⟩ := sineRefBoundAndSign i 436 (by decide)
  exact BitVec.toInt_ofInt_eq_self (by decide) (by omega) (by omega)

theorem sineRom_getD {i : Nat} (h : i < 436) : sineRom.getD i 0 = BitVec.ofInt 8 (sineRef i 436) :=
  getD_map_range _ _ h

theorem quarterRom_getD_toInt {i : Nat} (h : i < 110) :
    (quarterRom.getD i 0).toInt = sineRef i 436 := by
  rw [quarterRom, getD_map_range _ _ h, toInt_ofInt_sineRef]

/-- The mirror inside the first half-wave (R86(g)). -/
theorem sineRef_mirror {i : Nat} (h0 : 0 < i) (h : i < 218) :
    sineRef (218 - i) 436 = sineRef i 436 := by
  have hi : i % 436 = i := Nat.mod_eq_of_lt (by omega)
  have hmirror : (218 - i) % 436 = 218 - i := Nat.mod_eq_of_lt (by omega)
  rw [sineRef_firstHalf (by omega), sineRef_firstHalf (by omega), hi, hmirror, Nat.mul_sub,
    sineMag_symm (by omega)]

/-- The first half-wave read from the shortened memory: its quarter, then the mirror. -/
theorem quarterRom_half {i : Nat} (h : i < 218) :
    (quarterRom.getD (if i < 110 then i else 218 - i) 0).toInt = sineRef i 436 := by
  split
  next hquarter => exact quarterRom_getD_toInt hquarter
  next hmirror => rw [quarterRom_getD_toInt (by omega), sineRef_mirror (by omega) h]

/-- The shortened memory gives one period of `SINE_REF`; the second half-wave is minus the first. -/
theorem quarterSine_eq {i : Nat} (h : i < 436) : quarterSine i = sineRef i 436 := by
  unfold quarterSine
  split
  next hfirst => exact quarterRom_half hfirst
  next hsecond =>
    have hhalf := sineRef_add_half (m := 218) (i - 218) (by decide)
    rw [Nat.sub_add_cancel (by omega)] at hhalf
    exact (congrArg Neg.neg (quarterRom_half (by omega))).trans hhalf.symm

/-! The private index register of R84. -/

/-- Stepping an index with wrap at `n` is taking the remainder again. -/
theorem succ_mod_eq_ite {n : Nat} (m : Nat) (hn : 0 < n) :
    (m + 1) % n = if m % n + 1 = n then 0 else m % n + 1 := by
  have hlt : m % n < n := Nat.mod_lt m hn
  rw [← Nat.mod_add_mod]
  split
  next hwrap => rw [hwrap, Nat.mod_self]
  next hnext => exact Nat.mod_eq_of_lt (by omega)

/-- A tick takes the index register from `phase mod n` to `(phase + 1) mod n`, the wrap of `phase` included. -/
theorem indexStep_sineIndex {n : Word} (phase : Word) (hn : n ≠ 0) :
    indexStep n phase (sineIndex phase n) = sineIndex (phase + 1) n := by
  unfold indexStep
  split
  next hwrap => rw [hwrap, sineIndex_zero]
  next hnext =>
    have hsucc : (phase + 1).toNat = phase.toNat + 1 := by bv_omega
    rw [sineIndex, sineIndex, hsucc, succ_mod_eq_ite _ (by bv_omega)]

/-- Settles O31: the two memories at the index, where `SINE_REF` has the value it has at the phase. -/
theorem describedBuildsAreRight : Obligations.DescribedBuildsAreRight := by
  refine ⟨fun p => ?_, fun n phase hn => indexStep_sineIndex phase hn⟩
  have hlt : sineIndex p 436 < 436 := sineIndex_lt p (by decide)
  have hmod : sineRef (sineIndex p 436) 436 = sineRef p.toNat 436 := sineRef_mod p.toNat 436
  constructor
  · rw [sineRom_getD hlt, BitVec.signExtend, toInt_ofInt_sineRef, hmod, bits32]
  · rw [quarterSine_eq hlt, hmod]

end Sys2Proof.Machine
end
